-- ==== Sys2Proof/Word.lean ====
section
/-!
DEFINITION. The two bit-vector types of the hardware: the 32-bit word (R6, R11) and the memory byte (R51).
-/
namespace Sys2Proof

/-- A 32-bit pattern: register contents, addresses, instruction words (R6, R11). -/
abbrev Word := BitVec 32

/-- One byte of the byte-addressed memory (R51). -/
abbrev Byte := BitVec 8

end Sys2Proof
end

