-- ==== Sys2Proof/Config.lean ====
section
/-!
DEFINITION. What an implementation fixes: the roles of two registers (R6, R21), and the two values the spec leaves
open that the reset state has to name (R7, D21). The spec leaves no value free, so there is no opaque constant.
-/
namespace Sys2Proof.Config

/-- `LR`, the link register index (R6, R21). -/
abbrev lr : Fin 16 := 14

/-- `PCI`, the program counter index (R6, R21). -/
abbrev pc : Fin 16 := 15

/-- The MEM_SIZE of the reset state. DESIGN CHOICE (log 1): the spec leaves it OPEN (R7, D21). Unsafe for a claim about
the reset state; every other claim ranges over the size that State holds. -/
def resetMemSize : Nat := 2 ^ 32

/-- What a byte that the memory does not list reads as. DESIGN CHOICE (log 2): the spec leaves MEM_INIT open (R7, D21).
Unsafe for a claim about the reset memory; any contents can be listed. -/
def unlistedByte : Byte := 0#8

end Sys2Proof.Config
end

