-- ==== Sys2Proof/Machine/State.lean ====
section
/-!
DEFINITION. The machine's state as plain data (R20 to R41), the reasons a step can stop, and the state after reset (R38).
-/
namespace Sys2Proof.Machine

/-- The status register's five one-bit fields (R24). The other 27 bits read 0 and are never written (R25), so they are not
stored; the 32-bit value is the computed view `StatusReg.packed`. -/
structure StatusReg where
  n : Bool
  z : Bool
  c : Bool
  v : Bool
  /-- The Thumb-state bit, "carried but not acted upon" (R24, R26). -/
  t : Bool
  deriving DecidableEq, Repr

/-- The fatal error codes (R220). -/
inductive Cause where
  /-- The word is none of the 19 instructions (R72, R99, R101 to R103). -/
  | unknownOperation
  /-- A register index out of [0,15]; cannot occur for a fetched word (R162). -/
  | invalidRegisterIndex
  /-- BX to a target with bit 0 set (R206). -/
  | unsupportedMode
  /-- BX with Rm = 15 (R205). -/
  | bxPcOperand
  /-- The fetch address is misaligned or out of bounds (R52). -/
  | fetchFault
  deriving DecidableEq, Repr

/-- The run latch (R37). -/
inductive Run where
  | running
  | faulted (cause : Cause)
  deriving DecidableEq, Repr

/-- The external memory the core fetches from: `size` is MEM_SIZE, `cells` the contents (R7, R51), in canonical form
(`Memory.wf`): addresses strictly rising and below `size`, no entry equal to `Config.unlistedByte`. -/
structure Memory where
  size : Nat
  cells : List Host.Cell
  deriving DecidableEq, Repr

/-- The whole machine: register file (R20, R21), status register (R24), run latch (R37), and the memory behind the fetch
interface (R36, R50; log 3). -/
structure State where
  /-- `x[0]` .. `x[15]`; `x[14]` is LR and `x[15]` is PC (R20, R21). -/
  x : Vector Word 16
  flags : StatusReg
  run : Run
  mem : Memory
  deriving DecidableEq, Repr

/-- Why the machine stops. -/
inductive Fault where
  /-- Raised by `step` in a state whose latch is `Faulted(cause)`: "a faulted core takes no step" (R225). Safe: the spec's
  own terminal state (log 5). -/
  | stopped (cause : Cause)
  deriving DecidableEq, Repr

/-- Why an instruction has no meaning. -/
inductive Refusal where
  /-- Raised by an arm of `exec` whose instruction has no meaning yet; no arm raises it now. Safe: it only stops. -/
  | notModelled (mnemonic : String)
  deriving DecidableEq, Repr

/-- The state after reset (R38): every register and flag zero, running. The size and contents of the memory are the values
that log 1 and log 2 name (DESIGN CHOICE, unsafe). -/
def State.reset : State where
  x := Vector.replicate 16 0#32
  flags := { n := false, z := false, c := false, v := false, t := false }
  run := .running
  mem := { size := Config.resetMemSize, cells := [] }

end Sys2Proof.Machine
end

