-- ==== Sys2Proof/Syntax.lean ====
section
/-!
DEFINITION. The instruction set as syntax: the 15 conditions (R91, R120), the 4 shift types (R78), the second operand
(R76) and the 19 instructions, one constructor per row of spec/opcode_table.json.

The decoded form of a word (R76, R84, R88) is the raw word and the instruction: `Decoded`. The instruction alone is the
syntax that meanings, the encoder and the laws speak of (DEDUCED, safe: log 10).
-/
namespace Sys2Proof

/-- A register index. Every index is a 4-bit field of the word, so it is in 0..15 by construction (R162; log 11). -/
abbrev Reg := Fin 16

/-- The 15 condition codes of R91, in the spec's order. -/
inductive Cond where
  | eq | ne | cs | cc | mi | pl | vs | vc | hi | ls | ge | lt | gt | le | al
  deriving DecidableEq, Repr

/-- The four shift types of R78. -/
inductive ShiftType where
  | lsl | lsr | asr | ror
  deriving DecidableEq, Repr

/-- The second operand of a data-processing instruction (R76). -/
inductive Operand2 where
  /-- `#imm8` rotated right by `2 * rot` (R75, R141). -/
  | imm (rot : BitVec 4) (imm8 : BitVec 8)
  /-- `Rm` shifted by the immediate amount `shamt` (R77, R143). -/
  | regImm (rm : Reg) (stype : ShiftType) (shamt : BitVec 5)
  /-- `Rm` shifted by the low byte of `Rs` (R77, R144). -/
  | regReg (rm : Reg) (stype : ShiftType) (rs : Reg)
  deriving DecidableEq, Repr

/-- The fields every data-processing word has, whatever its operation (R73, R76). The compare operations ignore `s` and
`rd`, MOV and MVN ignore `rn` as an operand (R81, R92); the fields are kept, since the warning looks at them (R163). -/
structure DPFields where
  cond : Cond
  /-- `S`, the set-flags bit. -/
  s : Bool
  rn : Reg
  rd : Reg
  op2 : Operand2
  deriving DecidableEq, Repr

/-- The 19 instructions (R2, R93). B and BL hold the byte offset that the branch decoder forms (R83, R84). -/
inductive Instr where
  | and (d : DPFields)
  | eor (d : DPFields)
  | sub (d : DPFields)
  | rsb (d : DPFields)
  | add (d : DPFields)
  | adc (d : DPFields)
  | sbc (d : DPFields)
  | rsc (d : DPFields)
  | tst (d : DPFields)
  | teq (d : DPFields)
  | cmp (d : DPFields)
  | cmn (d : DPFields)
  | orr (d : DPFields)
  | mov (d : DPFields)
  | bic (d : DPFields)
  | mvn (d : DPFields)
  | b (cond : Cond) (offset : Word)
  | bl (cond : Cond) (offset : Word)
  | bx (cond : Cond) (rm : Reg)
  deriving DecidableEq, Repr

/-- A decoded word, of any of the three classes (R76, R84, R88): the raw word, and the instruction that holds the other fields
(the condition; for data-processing `I` as the operand's form and `opcode` as the constructor; for a branch `L` as the
constructor and the offset; for BX the operand register). -/
structure Decoded where
  raw : Word
  instr : Instr
  deriving DecidableEq, Repr

/-- The condition field of an instruction (R71). -/
def Instr.cond : Instr → Cond
  | .and d => d.cond
  | .eor d => d.cond
  | .sub d => d.cond
  | .rsb d => d.cond
  | .add d => d.cond
  | .adc d => d.cond
  | .sbc d => d.cond
  | .rsc d => d.cond
  | .tst d => d.cond
  | .teq d => d.cond
  | .cmp d => d.cond
  | .cmn d => d.cond
  | .orr d => d.cond
  | .mov d => d.cond
  | .bic d => d.cond
  | .mvn d => d.cond
  | .b c _ => c
  | .bl c _ => c
  | .bx c _ => c

end Sys2Proof
end

