-- ==== Sys2Proof/Machine/Flags.lean ====
section
/-!
DEFINITION. The six flag extractions (R111 to R118), the two helpers the arithmetic instructions share (R116, R117), the
two flag rules (R166, R167), the condition evaluator (R120) and the 32-bit view of the status register (R25).
-/
namespace Sys2Proof.Machine

/-- `extract_negative`: bit 31 of the value (R111). -/
def extractNegative (value : Word) : Bool := value.msb

/-- `extract_zero`: the value is 0 (R112). -/
def extractZero (value : Word) : Bool := decide (value = 0#32)

/-- `extract_carry_add`: a carry out of bit 31; there is no carry-in (R113). -/
def extractCarryAdd (a b : Word) : Bool := decide (2 ^ 32 ≤ a.toNat + b.toNat)

/-- `extract_carry_sub`: no borrow, an unsigned comparison (R114). -/
def extractCarrySub (a b : Word) : Bool := decide (b.toNat ≤ a.toNat)

/-- `extract_overflow_add` (R115). -/
def extractOverflowAdd (a b result : Word) : Bool := (a.msb == b.msb) && (result.msb != a.msb)

/-- `extract_overflow_sub` (R118). -/
def extractOverflowSub (a b result : Word) : Bool := (a.msb != b.msb) && (result.msb != a.msb)

/-- The triple `(r, c, v)` that `AddFlags` and `SubFlags` return (R116, R117). -/
structure Arith where
  r : Word
  c : Bool
  v : Bool
  deriving DecidableEq, Repr

/-- `AddFlags(a, b)` (R116). -/
def addFlags (a b : Word) : Arith where
  r := a + b
  c := extractCarryAdd a b
  v := extractOverflowAdd a b (a + b)

/-- `SubFlags(a, b)`, of `a - b` (R117). -/
def subFlags (a b : Word) : Arith where
  r := a - b
  c := extractCarrySub a b
  v := extractOverflowSub a b (a - b)

/-- The logical flag rule: N and Z from the result; C, V and T unchanged (R166, R24). -/
def logicalFlags (f : StatusReg) (r : Word) : StatusReg :=
  { f with n := extractNegative r, z := extractZero r }

/-- The arithmetic flag rule: N, Z, C and V recomputed; T unchanged (R167, R24). -/
def arithFlags (f : StatusReg) (o : Arith) : StatusReg :=
  { f with n := extractNegative o.r, z := extractZero o.r, c := o.c, v := o.v }

/-- The carry flag as a number to add, `C` of R175. -/
def carryIn (f : StatusReg) : Word := if f.c then 1#32 else 0#32

/-- `1 - C`, what SBC and RSC fold in (R176, R177). -/
def borrowIn (f : StatusReg) : Word := if f.c then 0#32 else 1#32

/-- `CondPassed(c)`, from the flags alone (R120). -/
def condPassed (c : Cond) (f : StatusReg) : Bool :=
  match c with
  | .eq => f.z
  | .ne => !f.z
  | .cs => f.c
  | .cc => !f.c
  | .mi => f.n
  | .pl => !f.n
  | .vs => f.v
  | .vc => !f.v
  | .hi => f.c && !f.z
  | .ls => !f.c || f.z
  | .ge => f.n == f.v
  | .lt => f.n != f.v
  | .gt => !f.z && (f.n == f.v)
  | .le => f.z || (f.n != f.v)
  | .al => true

/-- The 32-bit status value a host reads: N 31, Z 30, C 29, V 28, T 5, every other bit 0 (R25; PRESUMED: log 6). -/
def StatusReg.packed (f : StatusReg) : Word :=
  BitVec.ofBool f.n ++ BitVec.ofBool f.z ++ BitVec.ofBool f.c ++ BitVec.ofBool f.v ++ 0#22 ++ BitVec.ofBool f.t ++ 0#5

end Sys2Proof.Machine
end

