-- ==== Sys2Proof/WellFormed.lean ====
section
/-!
DEFINITION. Which terms of `Instr` some word stands for. The types already bound every field but one: a branch offset is
four times a signed 24-bit number (R83, R201), so it is a multiple of 4 (first check) and lies in
-2^25 .. 2^25 - 4 (second check). Every data-processing and BX term has a word (R74, R86).
-/
namespace Sys2Proof

/-- The low two bits of a branch offset are 00 (R83, R201). -/
def offsetAligned (offset : Word) : Bool := offset.extractLsb' 0 2 == 0#2

/-- A branch offset lies in -2^25 .. 2^25 - 1 (R83). -/
def offsetInRange (offset : Word) : Bool :=
  decide (-(2 ^ 25 : Int) ≤ offset.toInt) && decide (offset.toInt < 2 ^ 25)

/-- An instruction that some word of R72 stands for. -/
def Instr.wf : Instr → Bool
  | .and _ => true
  | .eor _ => true
  | .sub _ => true
  | .rsb _ => true
  | .add _ => true
  | .adc _ => true
  | .sbc _ => true
  | .rsc _ => true
  | .tst _ => true
  | .teq _ => true
  | .cmp _ => true
  | .cmn _ => true
  | .orr _ => true
  | .mov _ => true
  | .bic _ => true
  | .mvn _ => true
  | .b _ offset => offsetAligned offset && offsetInRange offset
  | .bl _ offset => offsetAligned offset && offsetInRange offset
  | .bx _ _ => true

end Sys2Proof
end

