-- ==== Sys2Proof/Decode.lean ====
section
/-!
DEFINITION. The decoders and, after them, the encoder: the code tables (R78, R80, R91), the three formats (R73 to R88),
the classification of a word (R72, R93), and what every other word is (R99, R101 to R103).

The numbers of the code tables, the class selector 00 and the BX pattern are the spec's, which marks them as general
knowledge (PRESUMED, unsafe: log 7).
-/
namespace Sys2Proof

/-- Why a byte sequence is no instruction. All but `truncated` are the spec's `UnknownOperation`. -/
inductive DecodeError where
  /-- Condition field 0b1111 (R99). -/
  | undefinedCondition
  /-- `w[27:26] = 01` (R101). -/
  | singleTransferSpace
  /-- `w[27:25] = 100` (R102). -/
  | blockTransferSpace
  /-- `w[27:26] = 11` (R103). -/
  | coprocessorSpace
  /-- Fewer than four bytes; no fetch gives that (R70). DESIGN CHOICE, safe: log 16. -/
  | truncated
  deriving DecidableEq, Repr

/-! ### Byte order (R53) -/

/-- The word whose byte at the lowest address is `b0`: memory is little-endian (R53). -/
def wordOfBytes (b0 b1 b2 b3 : Byte) : Word := b3 ++ b2 ++ b1 ++ b0

/-- The four bytes of a word, lowest address first (R53). -/
def bytesOfWord (w : Word) : List Byte :=
  [w.extractLsb' 0 8, w.extractLsb' 8 8, w.extractLsb' 16 8, w.extractLsb' 24 8]

/-! ### Code tables -/

/-- The condition with code `c`; 0b1111 is none (R91, R99). -/
def Cond.ofCode (c : BitVec 4) : Option Cond :=
  match c.toNat with
  | 0 => some .eq
  | 1 => some .ne
  | 2 => some .cs
  | 3 => some .cc
  | 4 => some .mi
  | 5 => some .pl
  | 6 => some .vs
  | 7 => some .vc
  | 8 => some .hi
  | 9 => some .ls
  | 10 => some .ge
  | 11 => some .lt
  | 12 => some .gt
  | 13 => some .le
  | 14 => some .al
  | _ => none

/-- The code of a condition (R91). -/
def Cond.code : Cond → BitVec 4
  | .eq => 0b0000#4
  | .ne => 0b0001#4
  | .cs => 0b0010#4
  | .cc => 0b0011#4
  | .mi => 0b0100#4
  | .pl => 0b0101#4
  | .vs => 0b0110#4
  | .vc => 0b0111#4
  | .hi => 0b1000#4
  | .ls => 0b1001#4
  | .ge => 0b1010#4
  | .lt => 0b1011#4
  | .gt => 0b1100#4
  | .le => 0b1101#4
  | .al => 0b1110#4

/-- The shift type with code `c` (R78). -/
def ShiftType.ofCode (c : BitVec 2) : ShiftType :=
  match c.toNat with
  | 0 => .lsl
  | 1 => .lsr
  | 2 => .asr
  | _ => .ror

/-- The code of a shift type (R78). -/
def ShiftType.code : ShiftType → BitVec 2
  | .lsl => 0b00#2
  | .lsr => 0b01#2
  | .asr => 0b10#2
  | .ror => 0b11#2

/-- The data-processing instruction with operation code `opcode` (R80): every code is a defined operation. -/
def Instr.ofOpcode (opcode : BitVec 4) (d : DPFields) : Instr :=
  match opcode.toNat with
  | 0 => .and d
  | 1 => .eor d
  | 2 => .sub d
  | 3 => .rsb d
  | 4 => .add d
  | 5 => .adc d
  | 6 => .sbc d
  | 7 => .rsc d
  | 8 => .tst d
  | 9 => .teq d
  | 10 => .cmp d
  | 11 => .cmn d
  | 12 => .orr d
  | 13 => .mov d
  | 14 => .bic d
  | _ => .mvn d

/-- `w[27:4]` of every branch-and-exchange word (R87). -/
def bxPattern : BitVec 24 := 0x12FFF1#24

/-! ### The decoders -/

/-- The 4-bit register field of `w` whose lowest bit is `lo`. -/
def regField (w : Word) (lo : Nat) : Reg := (w.extractLsb' lo 4).toFin

/-- The second operand: the immediate form if `w[25] = 1` (R75), else by `w[4]` one of the register forms (R77).
Bit 7 of the register-amount form is not looked at (R79). -/
def decodeOperand2 (w : Word) : Operand2 :=
  if w.getLsbD 25 then .imm (w.extractLsb' 8 4) (w.extractLsb' 0 8)
  else if w.getLsbD 4 then .regReg (regField w 0) (.ofCode (w.extractLsb' 5 2)) (regField w 8)
  else .regImm (regField w 0) (.ofCode (w.extractLsb' 5 2)) (w.extractLsb' 7 5)

/-- `decode_data_processing`: a pure bitfield split, total (R74, R76). -/
def decodeDataProcessing (c : Cond) (w : Word) : Decoded where
  raw := w
  instr := .ofOpcode (w.extractLsb' 21 4)
    { cond := c, s := w.getLsbD 20, rn := regField w 16, rd := regField w 12, op2 := decodeOperand2 w }

/-- The byte offset of a branch: the 24-bit field sign-extended to 32 bits and multiplied by 4 (R83). -/
def branchOffset (imm24 : BitVec 24) : Word := imm24.signExtend 32 <<< 2

/-- `decode_branch` (R82, R84): bit 24 tells BL from B. -/
def decodeBranch (c : Cond) (w : Word) : Decoded where
  raw := w
  instr := if w.getLsbD 24 then .bl c (branchOffset (w.extractLsb' 0 24)) else .b c (branchOffset (w.extractLsb' 0 24))

/-- `decode_branch_exchange` (R86, R88). -/
def decodeBranchExchange (c : Cond) (w : Word) : Decoded where
  raw := w
  instr := .bx c (regField w 0)

/-- Which space a word that no decoder takes lies in (R93, R101 to R103). -/
def unknownSpace (w : Word) : DecodeError :=
  if w.extractLsb' 26 2 = 0b01#2 then .singleTransferSpace
  else if w.extractLsb' 25 3 = 0b100#3 then .blockTransferSpace
  else .coprocessorSpace

/-- The classification of a word, the tests in the spec's order (R72, R93). -/
def classify (w : Word) : Except DecodeError Decoded :=
  match Cond.ofCode (w.extractLsb' 28 4) with
  | none => .error .undefinedCondition
  | some c =>
    if w.extractLsb' 4 24 = bxPattern then .ok (decodeBranchExchange c w)
    else if w.extractLsb' 25 3 = 0b101#3 then .ok (decodeBranch c w)
    else if w.extractLsb' 26 2 = 0b00#2 then .ok (decodeDataProcessing c w)
    else .error (unknownSpace w)

/-- The instruction a word is, without the raw word (R72). -/
def decodeWord (w : Word) : Except DecodeError Instr :=
  match classify w with
  | .ok d => .ok d.instr
  | .error e => .error e

/-- Decoding from the bytes as memory holds them: one instruction is four bytes (R70, R53); the rest is returned. -/
def decode : List Byte → Except DecodeError (Instr × List Byte)
  | b0 :: b1 :: b2 :: b3 :: rest =>
    match decodeWord (wordOfBytes b0 b1 b2 b3) with
    | .ok i => .ok (i, rest)
    | .error e => .error e
  | _ => .error .truncated

/-- The word that a table row's bits stand for; every bit above `nbits` is 0. -/
def tableWord (nbits w : Nat) : Word := BitVec.ofNat 32 (w % 2 ^ nbits)

/-- The instruction the decoder reads from a row of spec/opcode_table.json: the word laid out as memory holds it. -/
def decodeTableWord (nbits w : Nat) : Option Instr :=
  match decode (bytesOfWord (tableWord nbits w)) with
  | .ok (i, _) => some i
  | .error _ => none

/-! ### The encoder -/

/-- The 4 bits of a register index. -/
def regBits (r : Reg) : BitVec 4 := BitVec.ofFin r

/-- `w[11:0]` of a data-processing word, with the canonical `w[7] = 0` in the register-amount form (R75, R77, R79). -/
def encodeOperand2 : Operand2 → BitVec 12
  | .imm rot imm8 => rot ++ imm8
  | .regImm rm stype shamt => shamt ++ stype.code ++ 0#1 ++ regBits rm
  | .regReg rm stype rs => regBits rs ++ 0#1 ++ stype.code ++ 1#1 ++ regBits rm

/-- `I`, the immediate-mode bit (R73, R76). -/
def Operand2.immediateBit : Operand2 → BitVec 1
  | .imm _ _ => 1#1
  | .regImm _ _ _ => 0#1
  | .regReg _ _ _ => 0#1

/-- The canonical data-processing word (R73). -/
def canonicalDP (opcode : BitVec 4) (d : DPFields) : Word :=
  d.cond.code ++ 0b00#2 ++ d.op2.immediateBit ++ opcode ++ BitVec.ofBool d.s ++ regBits d.rn ++ regBits d.rd
    ++ encodeOperand2 d.op2

/-- The data-processing word. One form has BX's pattern as its canonical word (TEQ, S = 0, Rn = Rd = 15, `Rm LSL R15`);
its only word is the one with the ignored bit 7 set (R72, R79, R87). DEDUCED, safe: log 9. -/
def encodeDP (opcode : BitVec 4) (d : DPFields) : Word :=
  let w := canonicalDP opcode d
  if w.extractLsb' 4 24 = bxPattern then w ||| 0x80#32 else w

/-- The branch word: `imm24` is the offset divided by 4 (R82, R83, R85). -/
def encodeBranch (c : Cond) (link : BitVec 1) (offset : Word) : Word :=
  c.code ++ 0b101#3 ++ link ++ offset.extractLsb' 2 24

/-- The branch-and-exchange word (R86, R87). -/
def encodeBranchExchange (c : Cond) (rm : Reg) : Word := c.code ++ bxPattern ++ regBits rm

/-- The word of a well-formed instruction (R73, R80, R82, R86, R91). -/
def encode : Instr → Word
  | .and d => encodeDP 0b0000#4 d
  | .eor d => encodeDP 0b0001#4 d
  | .sub d => encodeDP 0b0010#4 d
  | .rsb d => encodeDP 0b0011#4 d
  | .add d => encodeDP 0b0100#4 d
  | .adc d => encodeDP 0b0101#4 d
  | .sbc d => encodeDP 0b0110#4 d
  | .rsc d => encodeDP 0b0111#4 d
  | .tst d => encodeDP 0b1000#4 d
  | .teq d => encodeDP 0b1001#4 d
  | .cmp d => encodeDP 0b1010#4 d
  | .cmn d => encodeDP 0b1011#4 d
  | .orr d => encodeDP 0b1100#4 d
  | .mov d => encodeDP 0b1101#4 d
  | .bic d => encodeDP 0b1110#4 d
  | .mvn d => encodeDP 0b1111#4 d
  | .b c offset => encodeBranch c 0#1 offset
  | .bl c offset => encodeBranch c 1#1 offset
  | .bx c rm => encodeBranchExchange c rm

end Sys2Proof
end

