-- ==== Sys2Proof/Machine/Ops.lean ====
section
/-!
DEFINITION. The named operations over memory, registers and the run latch: the fetch interface (R50 to R54), the loader's
writes (R252), register access (R20 to R22, R29), raising a fatal error (R224) and reset, the only way out of it (R225,
R250), the step result (R221, R220), and how an executor's effect is completed (R30, R238).
-/
namespace Sys2Proof.Machine

/-! ### Memory -/

/-- The byte a list of cells gives for an address. -/
def readCells : List Host.Cell → Nat → Byte
  | [], _ => Config.unlistedByte
  | (k, b) :: rest, a => if a = k then b else readCells rest a

/-- Write one byte into a rising list of cells, keeping it rising and without default entries. -/
def writeCells : List Host.Cell → Nat → Byte → List Host.Cell
  | [], a, v => if v = Config.unlistedByte then [] else [(a, v)]
  | (k, b) :: rest, a, v =>
    if a < k then (if v = Config.unlistedByte then (k, b) :: rest else (a, v) :: (k, b) :: rest)
    else if a = k then (if v = Config.unlistedByte then rest else (a, v) :: rest)
    else (k, b) :: writeCells rest a v

/-- Every address of the cells is above `lo`, they rise strictly, stay below `size`, and no entry is the default. -/
def cellsWf (size : Nat) : Option Nat → List Host.Cell → Bool
  | _, [] => true
  | lo, (k, b) :: rest =>
    (match lo with | none => true | some l => decide (l < k)) && decide (k < size) && decide (b ≠ Config.unlistedByte)
      && cellsWf size (some k) rest

/-- MEM_SIZE is a positive multiple of 4 of at most 2^32 (R7), and the contents are in canonical form. -/
def Memory.wf (m : Memory) : Bool :=
  decide (0 < m.size) && decide (m.size % 4 = 0) && decide (m.size ≤ 2 ^ 32) && cellsWf m.size none m.cells

/-- The contents at address `a`; meaningful for `a < m.size`. -/
def Memory.byteAt (m : Memory) (a : Nat) : Byte := readCells m.cells a

/-- `read_word`, the one memory function the core uses (R50): fails if misaligned or out of bounds, is neither split nor
rounded (R52), little-endian (R53). -/
def Memory.readWord (m : Memory) (addr : Word) : Option Word :=
  if addr.extractLsb' 0 2 = 0#2 ∧ addr.toNat + 4 ≤ m.size then
    some (wordOfBytes (m.byteAt addr.toNat) (m.byteAt (addr.toNat + 1)) (m.byteAt (addr.toNat + 2))
      (m.byteAt (addr.toNat + 3)))
  else none

/-- The LOADER's write of one byte (R252); no instruction uses it (R55). Outside the memory nothing is written (DESIGN
CHOICE, safe: log 14). -/
def Memory.writeByte (m : Memory) (a : Nat) (v : Byte) : Memory :=
  if a < m.size then { m with cells := writeCells m.cells a v } else m

/-- The LOADER's write of bytes at rising addresses. -/
def Memory.writeBytes (m : Memory) (a : Nat) : List Byte → Memory
  | [] => m
  | v :: rest => (m.writeByte a v).writeBytes (a + 1) rest

/-- The LOADER's write of one little-endian word (R252, R53). -/
def Memory.writeWord (m : Memory) (a : Nat) (w : Word) : Memory := m.writeBytes a (bytesOfWord w)

/-! ### Registers -/

/-- `x[i]` (R12, R20). -/
def State.reg (s : State) (i : Reg) : Word := s.x[i]

/-- `x[i] <- v` (R12, R20): no register is hardwired. -/
def State.setReg (s : State) (i : Reg) (v : Word) : State := { s with x := s.x.set i v }

/-- Write the five flags (R12, R24). -/
def State.setFlags (s : State) (f : StatusReg) : State := { s with flags := f }

/-- The machine with another memory behind the fetch interface (R36, R50). -/
def State.setMem (s : State) (m : Memory) : State := { s with mem := m }

/-- `pc`: `x[15]` at the start of the step, the address of the instruction (R12, R27). -/
def State.pc (s : State) : Word := s.reg Config.pc

/-! ### Raising a fatal error, and reset -/

/-- `raise <Cause>`: the latch is set and NOTHING else changes; there is no trap entry, no saved state and no vector
(R12, R224). -/
def raiseFatal (s : State) (cause : Cause) : State := { s with run := .faulted cause }

/-- The reset input, the only way out of `Faulted` (R225, R250): the reset state, with the memory as it was. It is no step
of the core (log 13). -/
def resetInput (s : State) : State := State.reset.setMem s.mem

/-! ### The step result (R220, R221) -/

/-- The `error_code` of a step result: success, the one warning, or a fatal cause (R220). -/
inductive ErrorCode where
  | none
  | pcUsedAsOperand
  | fatal (cause : Cause)
  deriving DecidableEq, Repr

/-- The numbers the spec gives the error codes (R220, D18). -/
def ErrorCode.number : ErrorCode → Nat
  | .none => 0
  | .fatal .unknownOperation => 1
  | .fatal .invalidRegisterIndex => 2
  | .pcUsedAsOperand => 3
  | .fatal .unsupportedMode => 4
  | .fatal .bxPcOperand => 5
  | .fatal .fetchFault => 6

/-- The Execution Result of a step: an output, not state (R40, R221; log 12). -/
structure ExecResult where
  nextPc : Word
  shouldHalt : Bool
  errorCode : ErrorCode
  deriving DecidableEq, Repr

/-- What an executor hands to the PC unit: the state with its register and flag writes made, and the step result. -/
structure Effect where
  state : State
  result : ExecResult
  deriving DecidableEq, Repr

/-- `pc + 4`, modulo 2^32 (R28, R39). -/
def nextInstruction (s : State) : Word := s.pc + 4#32

/-- `should_halt`: no operation of this hardware is a halt, so it is always false (R222). -/
def neverHalts : Bool := false

/-- The effect of `raise <Cause>`: no write; `next_pc = pc + 4` is reported and not applied (R224). -/
def Effect.raise (s : State) (cause : Cause) : Effect where
  state := s
  result := { nextPc := nextInstruction s, shouldHalt := neverHalts, errorCode := .fatal cause }

/-- A failed condition: no register write, no flag write, no warning, the PC advances (R121). -/
def Effect.skip (s : State) : Effect where
  state := s
  result := { nextPc := nextInstruction s, shouldHalt := neverHalts, errorCode := .none }

/-- The end of a step: a fatal code leaves the START state with the latch set (R224); otherwise the executor's writes
stand and `x[15] <- next_pc`, which supersedes a write to `x[15]` (R30, R31, R238). -/
def commit (s : State) (e : Effect) : State :=
  match e.result.errorCode with
  | .fatal cause => raiseFatal s cause
  | .none => e.state.setReg Config.pc e.result.nextPc
  | .pcUsedAsOperand => e.state.setReg Config.pc e.result.nextPc

/-- A meaning's answer: always a next state, since a fatal error is a state too (R37, R224; log 5). -/
def complete (s : State) (e : Effect) : Host.Outcome State Fault Refusal := .next (commit s e)

/-! ### Fetch and decode (R52, R72) -/

/-- The instruction word at `x[15]`, if the fetch succeeds (R27, R52). -/
def fetchWord (s : State) : Option Word := s.mem.readWord s.pc

/-- Fetch, then classify: a failed fetch is `FetchFault` (R52), a word of no class `UnknownOperation` (R72). -/
def fetchDecode (s : State) : Except Cause Decoded :=
  match fetchWord s with
  | none => .error .fetchFault
  | some w =>
    match classify w with
    | .error _ => .error .unknownOperation
    | .ok d => .ok d

/-- The state with the table word stored where the next fetch reads it (R252; log 4). -/
def loadAtPc (s : State) (nbits w : Nat) : State :=
  s.setMem (s.mem.writeWord s.pc.toNat (tableWord nbits w))

end Sys2Proof.Machine
end

