-- ==== Sys2Proof/Machine/Operands.lean ====
section
/-!
DEFINITION. The second-operand unit (R140 to R152) and operand 1 (R164). It reads registers only: no flag is read and no
carry-out exists (R150, R152).
-/
namespace Sys2Proof.Machine

/-- Logical shift left: `(u(v) * 2^n) mod 2^32` (R146). -/
def lsl32 (v : Word) (n : Nat) : Word := BitVec.ofNat 32 (v.toNat * 2 ^ n)

/-- Logical shift right: `floor(u(v) / 2^n)` (R147). -/
def lsr32 (v : Word) (n : Nat) : Word := BitVec.ofNat 32 (v.toNat / 2 ^ n)

/-- Arithmetic shift right: the pattern of `floor(s(v) / 2^n)` (R148). -/
def asr32 (v : Word) (n : Nat) : Word := BitVec.ofInt 32 (v.toInt / 2 ^ n)

/-- Rotate right: with `k = n mod 32`, `((u(v) >> k) OR (u(v) << (32 - k))) mod 2^32` (R149). -/
def ror32 (v : Word) (n : Nat) : Word :=
  if n % 32 = 0 then v else (v >>> (n % 32)) ||| (v <<< (32 - n % 32))

/-- `Shift(v, stype, amt)`: amount 0 is no shift for every type (R143, R145). -/
def shift (v : Word) (stype : ShiftType) (amt : Nat) : Word :=
  if amt = 0 then v
  else
    match stype with
    | .lsl => lsl32 v amt
    | .lsr => lsr32 v amt
    | .asr => asr32 v amt
    | .ror => ror32 v amt

/-- The rotated immediate: `ROR32(zext_8(imm8), 2 * rot)` (R141). -/
def rotatedImmediate (rot : BitVec 4) (imm8 : BitVec 8) : Word := ror32 (imm8.setWidth 32) (2 * rot.toNat)

/-- The amount of a register shift: the low byte of `x[Rs]` (R144). -/
def registerAmount (v : Word) : Nat := (v.extractLsb' 0 8).toNat

/-- `Operand2(d)`, from the registers at the start of the step; index 15 reads `pc` (R140, R151). -/
def operand2 (op2 : Operand2) (s : State) : Word :=
  match op2 with
  | .imm rot imm8 => rotatedImmediate rot imm8
  | .regImm rm stype shamt => shift (s.reg rm) stype shamt.toNat
  | .regReg rm stype rs => shift (s.reg rm) stype (registerAmount (s.reg rs))

/-- Operand 1: `x[Rn]` (R164); index 15 reads `pc`, with no offset (R29). -/
def operand1 (d : DPFields) (s : State) : Word := s.reg d.rn

/-- The `Rm` field, where the operand has one: `I = 0` (R163). -/
def operandRm? : Operand2 → Option Reg
  | .imm _ _ => none
  | .regImm rm _ _ => some rm
  | .regReg rm _ _ => some rm

/-- The `Rs` field, where the operand has one (R77). -/
def operandRs? : Operand2 → Option Reg
  | .imm _ _ => none
  | .regImm _ _ _ => none
  | .regReg _ _ rs => some rs

/-- A register index is in [0,15] (R162). -/
def validIndex (i : Reg) : Bool := decide (i.val < 16)

/-- The register-index validation of R162, on all index fields (C5). A check that cannot fire: every index is a 4-bit field
(log 11). -/
def indicesValid (d : DPFields) : Bool :=
  validIndex d.rn && validIndex d.rd && (operandRm? d.op2).all validIndex && (operandRs? d.op2).all validIndex

/-- The condition of the `PcUsedAsOperand` warning: the `Rn` field, or `Rm` when `I = 0`, is 15, whatever the operation;
neither `Rs` nor `Rd` counts (R163). -/
def pcOperandWarning (d : DPFields) : Bool :=
  decide (d.rn = Config.pc) || decide (operandRm? d.op2 = some Config.pc)

end Sys2Proof.Machine
end

