-- ==== Sys2Proof/Machine/DataProcessing.lean ====
section
/-!
DEFINITION. What every data-processing instruction does (R160 to R167), once: the condition gate, the index check, the
warning, the destination write and the flag write. Each instruction's own file gives the operation.
-/
namespace Sys2Proof.Machine

/-- The operation's share of a data-processing instruction: the result, the flags it would leave, and which of the two are
written. -/
structure AluOut where
  result : Word
  flags : StatusReg
  writesRd : Bool
  writesFlags : Bool
  deriving DecidableEq, Repr

/-- A result-writing logical operation: flags by R166, written if S = 1 (R81, R165). -/
def logicalResult (d : DPFields) (s : State) (r : Word) : AluOut where
  result := r
  flags := logicalFlags s.flags r
  writesRd := true
  writesFlags := d.s

/-- A result-writing arithmetic operation: flags by R167, written if S = 1 (R81, R165). -/
def arithResult (d : DPFields) (s : State) (o : Arith) : AluOut where
  result := o.r
  flags := arithFlags s.flags o
  writesRd := true
  writesFlags := d.s

/-- A logical compare: no register is written, flags by R166 whatever S is (R81, R178). -/
def logicalCompare (s : State) (r : Word) : AluOut where
  result := r
  flags := logicalFlags s.flags r
  writesRd := false
  writesFlags := true

/-- An arithmetic compare: no register is written, flags by R167 whatever S is (R81, R180). -/
def arithCompare (s : State) (o : Arith) : AluOut where
  result := o.r
  flags := arithFlags s.flags o
  writesRd := false
  writesFlags := true

/-- The register and flag writes of an operation (R160, R165). -/
def writeBack (d : DPFields) (out : AluOut) (s : State) : State :=
  let s' := if out.writesRd then s.setReg d.rd out.result else s
  if out.writesFlags then s'.setFlags out.flags else s'

/-- `ExecuteDP(d)` (R160): the condition gate (R161), the index validation (R162), the warning (R163), then the writes;
`next_pc = pc + 4` always (R28, R31). -/
def executeDP (d : DPFields) (s : State) (out : AluOut) : Effect :=
  if condPassed d.cond s.flags then
    if indicesValid d then
      { state := writeBack d out s
        result :=
          { nextPc := nextInstruction s
            shouldHalt := neverHalts
            errorCode := if pcOperandWarning d then .pcUsedAsOperand else .none } }
    else .raise s .invalidRegisterIndex
  else .skip s

end Sys2Proof.Machine
end

