-- ==== Sys2Proof/Machine/Arithmetic.lean ====
section
/-!
DEFINITION. The arithmetic group: ADD (R172), SUB (R173), RSB (R174), ADC (R175), SBC (R176), RSC (R177). ADC, SBC and RSC
fold the carry into the second argument modulo 2^32 and then use the two-input helper; the flags come from that same pair,
so they differ from a three-input adder's where the fold wraps (R167, R175 to R177, C11).
-/
namespace Sys2Proof.Machine

/-- ADD: `AddFlags(a, b)` (R172). -/
def effectAdd (d : DPFields) (s : State) : Effect :=
  executeDP d s (arithResult d s (addFlags (operand1 d s) (operand2 d.op2 s)))

/-- The meaning of ADD (R172). -/
def execAdd (d : DPFields) (s : State) : Host.Outcome State Fault Refusal := complete s (effectAdd d s)

/-- SUB: `SubFlags(a, b)` (R173). -/
def effectSub (d : DPFields) (s : State) : Effect :=
  executeDP d s (arithResult d s (subFlags (operand1 d s) (operand2 d.op2 s)))

/-- The meaning of SUB (R173). -/
def execSub (d : DPFields) (s : State) : Host.Outcome State Fault Refusal := complete s (effectSub d s)

/-- RSB: `SubFlags(b, a)`, the reversed pair (R174). -/
def effectRsb (d : DPFields) (s : State) : Effect :=
  executeDP d s (arithResult d s (subFlags (operand2 d.op2 s) (operand1 d s)))

/-- The meaning of RSB (R174). -/
def execRsb (d : DPFields) (s : State) : Host.Outcome State Fault Refusal := complete s (effectRsb d s)

/-- ADC: `AddFlags(a, b')` with `b' = (b + C) mod 2^32` (R175). -/
def effectAdc (d : DPFields) (s : State) : Effect :=
  executeDP d s (arithResult d s (addFlags (operand1 d s) (operand2 d.op2 s + carryIn s.flags)))

/-- The meaning of ADC (R175). -/
def execAdc (d : DPFields) (s : State) : Host.Outcome State Fault Refusal := complete s (effectAdc d s)

/-- SBC: `SubFlags(a, b')` with `b' = (b + (1 - C)) mod 2^32` (R176). -/
def effectSbc (d : DPFields) (s : State) : Effect :=
  executeDP d s (arithResult d s (subFlags (operand1 d s) (operand2 d.op2 s + borrowIn s.flags)))

/-- The meaning of SBC (R176). -/
def execSbc (d : DPFields) (s : State) : Host.Outcome State Fault Refusal := complete s (effectSbc d s)

/-- RSC: `SubFlags(b, a')` with `a' = (a + (1 - C)) mod 2^32`: the fold goes into the subtrahend, `x[Rn]` (R177). -/
def effectRsc (d : DPFields) (s : State) : Effect :=
  executeDP d s (arithResult d s (subFlags (operand2 d.op2 s) (operand1 d s + borrowIn s.flags)))

/-- The meaning of RSC (R177). -/
def execRsc (d : DPFields) (s : State) : Host.Outcome State Fault Refusal := complete s (effectRsc d s)

end Sys2Proof.Machine
end

