-- ==== Sys2Proof/Machine/Branch.lean ====
section
/-!
DEFINITION. The branches: B (R202), BL (R203), BX (R207). The offset is added to the address of the branch itself; BL links
`pc - 4`, the formula of R203 (C1). No flag is written (R200).
-/
namespace Sys2Proof.Machine

/-- A taken branch: the executor's writes so far, and `next_pc` (R202, R207). -/
def taken (s : State) (target : Word) : Effect where
  state := s
  result := { nextPc := target, shouldHalt := neverHalts, errorCode := .none }

/-- The link value: `((pc - 4) mod 2^32) AND 0xFFFFFFFC` (R203). -/
def linkValue (s : State) : Word := (s.pc - 4#32) &&& 0xFFFFFFFC#32

/-- B: `pc <- (pc + offset) mod 2^32` (R202, R204). -/
def effectB (c : Cond) (offset : Word) (s : State) : Effect :=
  if condPassed c s.flags then taken s (s.pc + offset) else .skip s

/-- The meaning of B (R202). -/
def execB (c : Cond) (offset : Word) (s : State) : Host.Outcome State Fault Refusal := complete s (effectB c offset s)

/-- BL: `x[14] <- ((pc - 4) mod 2^32) AND 0xFFFFFFFC`, and the target, both from the same `pc` (R203, R204). -/
def effectBl (c : Cond) (offset : Word) (s : State) : Effect :=
  if condPassed c s.flags then taken (s.setReg Config.lr (linkValue s)) (s.pc + offset) else .skip s

/-- The meaning of BL (R203). -/
def execBl (c : Cond) (offset : Word) (s : State) : Host.Outcome State Fault Refusal := complete s (effectBl c offset s)

/-- BX: Rm = 15 is fatal before the condition is tested (R205); then the condition; then bit 0 of the target, which asks
for Thumb state and is fatal (R206); then `pc <- t AND 0xFFFFFFFC` (R207). -/
def effectBx (c : Cond) (rm : Reg) (s : State) : Effect :=
  if rm = Config.pc then .raise s .bxPcOperand
  else if condPassed c s.flags then
    if (s.reg rm).getLsbD 0 then .raise s .unsupportedMode else taken s (s.reg rm &&& 0xFFFFFFFC#32)
  else .skip s

/-- The meaning of BX (R207). -/
def execBx (c : Cond) (rm : Reg) (s : State) : Host.Outcome State Fault Refusal := complete s (effectBx c rm s)

end Sys2Proof.Machine
end

