-- ==== Sys2Proof/Machine/Compare.lean ====
section
/-!
DEFINITION. The compare group: TST (R178), TEQ (R179), CMP (R180), CMN (R181). No register is written, and the flags are
written whatever the S bit is (R81); the `Rd` field is ignored (R92).
-/
namespace Sys2Proof.Machine

/-- TST: the flags of `a AND b` (R178). -/
def effectTst (d : DPFields) (s : State) : Effect :=
  executeDP d s (logicalCompare s (operand1 d s &&& operand2 d.op2 s))

/-- The meaning of TST (R178). -/
def execTst (d : DPFields) (s : State) : Host.Outcome State Fault Refusal := complete s (effectTst d s)

/-- TEQ: the flags of `a XOR b` (R179). -/
def effectTeq (d : DPFields) (s : State) : Effect :=
  executeDP d s (logicalCompare s (operand1 d s ^^^ operand2 d.op2 s))

/-- The meaning of TEQ (R179). -/
def execTeq (d : DPFields) (s : State) : Host.Outcome State Fault Refusal := complete s (effectTeq d s)

/-- CMP: the flags of `SubFlags(a, b)` (R180). -/
def effectCmp (d : DPFields) (s : State) : Effect :=
  executeDP d s (arithCompare s (subFlags (operand1 d s) (operand2 d.op2 s)))

/-- The meaning of CMP (R180). -/
def execCmp (d : DPFields) (s : State) : Host.Outcome State Fault Refusal := complete s (effectCmp d s)

/-- CMN: the flags of `AddFlags(a, b)` (R181). -/
def effectCmn (d : DPFields) (s : State) : Effect :=
  executeDP d s (arithCompare s (addFlags (operand1 d s) (operand2 d.op2 s)))

/-- The meaning of CMN (R181). -/
def execCmn (d : DPFields) (s : State) : Host.Outcome State Fault Refusal := complete s (effectCmn d s)

end Sys2Proof.Machine
end

