-- ==== Sys2Proof/Machine/Logical.lean ====
section
/-!
DEFINITION. The logical group: AND (R168), ORR (R169), EOR (R170), BIC (R171). Each has its effect, which gives the step
result too, and its meaning.
-/
namespace Sys2Proof.Machine

/-- AND: `r = a AND b` (R168). -/
def effectAnd (d : DPFields) (s : State) : Effect :=
  executeDP d s (logicalResult d s (operand1 d s &&& operand2 d.op2 s))

/-- The meaning of AND (R168). -/
def execAnd (d : DPFields) (s : State) : Host.Outcome State Fault Refusal := complete s (effectAnd d s)

/-- ORR: `r = a OR b` (R169). -/
def effectOrr (d : DPFields) (s : State) : Effect :=
  executeDP d s (logicalResult d s (operand1 d s ||| operand2 d.op2 s))

/-- The meaning of ORR (R169). -/
def execOrr (d : DPFields) (s : State) : Host.Outcome State Fault Refusal := complete s (effectOrr d s)

/-- EOR: `r = a XOR b` (R170). -/
def effectEor (d : DPFields) (s : State) : Effect :=
  executeDP d s (logicalResult d s (operand1 d s ^^^ operand2 d.op2 s))

/-- The meaning of EOR (R170). -/
def execEor (d : DPFields) (s : State) : Host.Outcome State Fault Refusal := complete s (effectEor d s)

/-- BIC: `r = a AND (NOT b)` (R171). -/
def effectBic (d : DPFields) (s : State) : Effect :=
  executeDP d s (logicalResult d s (operand1 d s &&& ~~~(operand2 d.op2 s)))

/-- The meaning of BIC (R171). -/
def execBic (d : DPFields) (s : State) : Host.Outcome State Fault Refusal := complete s (effectBic d s)

end Sys2Proof.Machine
end

