-- ==== Sys2Proof/Machine/Move.lean ====
section
/-!
DEFINITION. The move group: MOV (R182) and MVN (R183). `Rn` is ignored as an operand (R92); C is never written, whatever
the shift (R150).
-/
namespace Sys2Proof.Machine

/-- MOV: `r = b` (R182). -/
def effectMov (d : DPFields) (s : State) : Effect :=
  executeDP d s (logicalResult d s (operand2 d.op2 s))

/-- The meaning of MOV (R182). -/
def execMov (d : DPFields) (s : State) : Host.Outcome State Fault Refusal := complete s (effectMov d s)

/-- MVN: `r = NOT b`, with MOV's flag rule (R183, D14). -/
def effectMvn (d : DPFields) (s : State) : Effect :=
  executeDP d s (logicalResult d s (~~~(operand2 d.op2 s)))

/-- The meaning of MVN (R183). -/
def execMvn (d : DPFields) (s : State) : Host.Outcome State Fault Refusal := complete s (effectMvn d s)

end Sys2Proof.Machine
end

