-- ==== Sys2Proof/Machine/Dispatch.lean ====
section
/-!
DEFINITION. The dispatch: one arm per constructor of `Instr`, each one call of the instruction's meaning.
-/
namespace Sys2Proof.Machine

def exec (i : Instr) (s : State) : Host.Outcome State Fault Refusal :=
  match i with
  | .and d => Sys2Proof.Machine.execAnd d s
  | .eor d => Sys2Proof.Machine.execEor d s
  | .sub d => Sys2Proof.Machine.execSub d s
  | .rsb d => Sys2Proof.Machine.execRsb d s
  | .add d => Sys2Proof.Machine.execAdd d s
  | .adc d => Sys2Proof.Machine.execAdc d s
  | .sbc d => Sys2Proof.Machine.execSbc d s
  | .rsc d => Sys2Proof.Machine.execRsc d s
  | .tst d => Sys2Proof.Machine.execTst d s
  | .teq d => Sys2Proof.Machine.execTeq d s
  | .cmp d => Sys2Proof.Machine.execCmp d s
  | .cmn d => Sys2Proof.Machine.execCmn d s
  | .orr d => Sys2Proof.Machine.execOrr d s
  | .mov d => Sys2Proof.Machine.execMov d s
  | .bic d => Sys2Proof.Machine.execBic d s
  | .mvn d => Sys2Proof.Machine.execMvn d s
  | .b c offset => Sys2Proof.Machine.execB c offset s
  | .bl c offset => Sys2Proof.Machine.execBl c offset s
  | .bx c rm => Sys2Proof.Machine.execBx c rm s

end Sys2Proof.Machine
end

