-- ==== Sys2Proof/Machine/Step.lean ====
section
/-!
DEFINITION. One step of the core (R238), and the placing of a word where the next step fetches it.
-/
namespace Sys2Proof.Machine

/-- `Step` (R238): a faulted core takes no step (R225); a failed fetch or an unclassifiable word raises its cause (R52,
R72); otherwise the decoded instruction executes. The order of the checks is R227's; `exec` itself does not look at the latch
(log 15). -/
def step (s : State) : Host.Outcome State Fault Refusal :=
  match s.run with
  | .faulted cause => .fault (.stopped cause)
  | .running =>
    match fetchDecode s with
    | .error cause => .next (raiseFatal s cause)
    | .ok d => exec d.instr s

/-- `s` with the table's word stored at `x[15]`, where `step` fetches (R27, R252; log 4). Nothing else changes. -/
def State.withFetchWord (s : State) (nbits w : Nat) : State := loadAtPc s nbits w

end Sys2Proof.Machine
end

