-- ==== Sys2Proof/Machine/Result.lean ====
section
/-!
DEFINITION. The step result (R221): the output of the step that starts in a state. It is not state and nothing remembers it
(R40, R229; log 12), so it is computed from the state the step starts in.
-/
namespace Sys2Proof.Machine

/-- What the executor of an instruction hands to the PC unit. -/
def effectOf (i : Instr) (s : State) : Effect :=
  match i with
  | .and d => effectAnd d s
  | .eor d => effectEor d s
  | .sub d => effectSub d s
  | .rsb d => effectRsb d s
  | .add d => effectAdd d s
  | .adc d => effectAdc d s
  | .sbc d => effectSbc d s
  | .rsc d => effectRsc d s
  | .tst d => effectTst d s
  | .teq d => effectTeq d s
  | .cmp d => effectCmp d s
  | .cmn d => effectCmn d s
  | .orr d => effectOrr d s
  | .mov d => effectMov d s
  | .bic d => effectBic d s
  | .mvn d => effectMvn d s
  | .b c offset => effectB c offset s
  | .bl c offset => effectBl c offset s
  | .bx c rm => effectBx c rm s

/-- The Execution Result of the step that starts in `s`; none if the core is faulted, since no step is taken (R225). -/
def stepResult (s : State) : Option ExecResult :=
  match s.run with
  | .faulted _ => none
  | .running =>
    match fetchDecode s with
    | .error cause => some (Effect.raise s cause).result
    | .ok d => some (effectOf d.instr s).result

/-- What the host can read between steps: the sixteen registers and the 32-bit status value (R9, R25). -/
def observe (s : State) : Vector Word 16 × Word := (s.x, s.flags.packed)

end Sys2Proof.Machine
end

