-- ==== Sys2Proof/Safety.lean ====
section
/-!
DEFINITION. The terms the statements use: the invariant of the machine, which start states the host may set (R254), what a
completed step is, and the shapes in which an instruction completes, each with its frame. The flag outcomes are written
from the document's own properties (carry as an unbounded sum, overflow as a range), not through the model's helpers.
-/
namespace Sys2Proof.Machine

/-! ### Invariants and runs -/

/-- The machine's invariant: the memory is in canonical form with a legal MEM_SIZE (R7), T is 0 (R26), the PC is a multiple
of 4 (R39, R208). -/
def State.Inv (s : State) : Prop := s.mem.wf = true ∧ s.flags.t = false ∧ s.pc.toNat % 4 = 0

/-- A start state the host may set (R254). -/
def HostStart (s : State) : Prop := s.flags.t = false ∧ s.run = .running

/-- The fetch address is aligned and in bounds, so the fetch succeeds (R52). -/
def Fetchable (s : State) : Prop := s.pc.toNat % 4 = 0 ∧ s.pc.toNat + 4 ≤ s.mem.size

/-- A step that ends without a fatal error: what a safe step is. -/
def CompletesTo (s t : State) : Prop := step s = .next t ∧ t.run = .running

/-! ### Frames -/

/-- Every byte of memory reads as before, and the memory has the same size (R55). -/
def MemoryUnchanged (s t : State) : Prop := t.mem.size = s.mem.size ∧ ∀ a, t.mem.byteAt a = s.mem.byteAt a

/-- Every register but `d` and the PC is unchanged. -/
def RegsUnchangedBut (d : Reg) (s t : State) : Prop := ∀ k : Reg, k ≠ d → k ≠ Config.pc → t.reg k = s.reg k

/-- Every register but the PC is unchanged. -/
def RegsUnchanged (s t : State) : Prop := ∀ k : Reg, k ≠ Config.pc → t.reg k = s.reg k

/-! ### Flag outcomes -/

/-- N and Z of `r`; C, V and T as in `f` (R166). -/
def logicalOutcome (f : StatusReg) (r : Word) : StatusReg where
  n := r.getLsbD 31
  z := decide (r = 0#32)
  c := f.c
  v := f.v
  t := f.t

/-- The flags of the addition `a + b`: C is a carry out of 32 bits, V is a signed sum outside 32 bits (R113, R115). -/
def sumOutcome (f : StatusReg) (a b : Word) : StatusReg where
  n := (a + b).getLsbD 31
  z := decide (a + b = 0#32)
  c := decide (2 ^ 32 ≤ a.toNat + b.toNat)
  v := decide (a.toInt + b.toInt < -2 ^ 31 ∨ 2 ^ 31 ≤ a.toInt + b.toInt)
  t := f.t

/-- The flags of the subtraction `a - b`: C is "no borrow", V is a signed difference outside 32 bits (R114, R118). -/
def differenceOutcome (f : StatusReg) (a b : Word) : StatusReg where
  n := (a - b).getLsbD 31
  z := decide (a - b = 0#32)
  c := decide (b.toNat ≤ a.toNat)
  v := decide (a.toInt - b.toInt < -2 ^ 31 ∨ 2 ^ 31 ≤ a.toInt - b.toInt)
  t := f.t

/-! ### Shapes of completion -/

/-- `exec i` completes from `s` as a result-writing data-processing instruction: `x[Rd]` is `r` (the write is superseded by
the PC update when Rd = 15, R31), the flags are `f` if S = 1 and unchanged otherwise, the PC advances by 4, nothing else
changes. -/
def ExecWrites (i : Instr) (d : DPFields) (s : State) (r : Word) (f : StatusReg) : Prop :=
  ∃ t, exec i s = .next t ∧ (d.rd ≠ Config.pc → t.reg d.rd = r) ∧ RegsUnchangedBut d.rd s t ∧ t.pc = s.pc + 4#32 ∧
    t.flags = (if d.s = true then f else s.flags) ∧ t.run = s.run ∧ MemoryUnchanged s t

/-- `exec i` completes from `s` as a compare: the flags are `f` whatever S is, the PC advances by 4, nothing else changes. -/
def ExecCompares (i : Instr) (s : State) (f : StatusReg) : Prop :=
  ∃ t, exec i s = .next t ∧ RegsUnchanged s t ∧ t.pc = s.pc + 4#32 ∧ t.flags = f ∧ t.run = s.run ∧ MemoryUnchanged s t

/-- `exec i` completes from `s` by giving the PC the value `target` and changing nothing else. -/
def ExecMovesPc (i : Instr) (s : State) (target : Word) : Prop :=
  ∃ t, exec i s = .next t ∧ RegsUnchanged s t ∧ t.pc = target ∧ t.flags = s.flags ∧ t.run = s.run ∧ MemoryUnchanged s t

/-! ### Which words an instruction has -/

/-- Every word `cond 00 I opcode S Rn Rd operand2` with a defined condition, but for the BX pattern, decodes to the
instruction that `mk` makes of its fields (R72, R73, R76). -/
def WordsOf (opcode : BitVec 4) (mk : DPFields → Instr) : Prop :=
  ∀ (w : Word) (c : Cond), c.code = w.extractLsb' 28 4 → w.extractLsb' 26 2 = 0b00#2 → w.extractLsb' 21 4 = opcode →
    w.extractLsb' 4 24 ≠ 0x12FFF1#24 →
    ∃ d, decodeWord w = .ok (mk d) ∧ d.cond = c ∧ d.s = w.getLsbD 20 ∧ d.rn.val = (w.extractLsb' 16 4).toNat ∧
      d.rd.val = (w.extractLsb' 12 4).toNat ∧ d.op2 = decodeOperand2 w

/-- Every word `cond 101 L imm24` with a defined condition decodes to the branch `mk` with the byte offset
`4 * s(imm24)` (R82, R83). -/
def BranchWordsOf (link : Bool) (mk : Cond → Word → Instr) : Prop :=
  ∀ (w : Word) (c : Cond), c.code = w.extractLsb' 28 4 → w.extractLsb' 25 3 = 0b101#3 → w.getLsbD 24 = link →
    ∃ offset, decodeWord w = .ok (mk c offset) ∧ offset.toInt = 4 * (w.extractLsb' 0 24).toInt

/-! ### Groups of instructions (R80, R32) -/

/-- The twelve operations that write `x[Rd]` (R165). -/
def resultFields? : Instr → Option DPFields
  | .and d => some d
  | .eor d => some d
  | .sub d => some d
  | .rsb d => some d
  | .add d => some d
  | .adc d => some d
  | .sbc d => some d
  | .rsc d => some d
  | .tst _ => none
  | .teq _ => none
  | .cmp _ => none
  | .cmn _ => none
  | .orr d => some d
  | .mov d => some d
  | .bic d => some d
  | .mvn d => some d
  | .b _ _ => none
  | .bl _ _ => none
  | .bx _ _ => none

/-- The four compares (R178 to R181). -/
def compareFields? : Instr → Option DPFields
  | .and _ => none
  | .eor _ => none
  | .sub _ => none
  | .rsb _ => none
  | .add _ => none
  | .adc _ => none
  | .sbc _ => none
  | .rsc _ => none
  | .tst d => some d
  | .teq d => some d
  | .cmp d => some d
  | .cmn d => some d
  | .orr _ => none
  | .mov _ => none
  | .bic _ => none
  | .mvn _ => none
  | .b _ _ => none
  | .bl _ _ => none
  | .bx _ _ => none

/-- The fields of a data-processing instruction of either kind. -/
def dpFields? (i : Instr) : Option DPFields := (resultFields? i).or (compareFields? i)

/-- The eight operations whose flag rule is the logical one (R32, R166). -/
def isLogical : Instr → Bool
  | .and _ => true
  | .eor _ => true
  | .sub _ => false
  | .rsb _ => false
  | .add _ => false
  | .adc _ => false
  | .sbc _ => false
  | .rsc _ => false
  | .tst _ => true
  | .teq _ => true
  | .cmp _ => false
  | .cmn _ => false
  | .orr _ => true
  | .mov _ => true
  | .bic _ => true
  | .mvn _ => true
  | .b _ _ => false
  | .bl _ _ => false
  | .bx _ _ => false

end Sys2Proof.Machine
end

