-- ==== Sys2Proof/Certificates/Slice0/Obligations.lean ====
section
/-!
DEFINITION. The statements for the provers, one `def Obligations.<Name> : Prop` each. A docstring names the rule of spec/ a
statement formalises; where a clause rests on a decision of the spec (D<n>), on general knowledge (G<n>) or on a choice of the
model (log <n>), the docstring says so.
-/
open Sys2Proof Sys2Proof.Machine

/-! ### Reset and the run latch -/

/-- R38: all registers, all flags and the packed status value are zero after reset, and the core is running. The `run` row of
R38 is decision D17, the zero reserved bits D16. The memory is no part of R38's state; its reset value is the model's choice
(log 1, log 2) and nothing is said of it here. -/
def Obligations.ResetStateIsZeroAndRunning : Prop :=
  (∀ k, State.reset.reg k = 0#32) ∧
    State.reset.flags = { n := false, z := false, c := false, v := false, t := false } ∧
    State.reset.flags.packed = 0#32 ∧ State.reset.run = .running

/-- R250 (decision D23): whatever the state, reset zeroes registers and flags, sets `run = Running` and does not touch the
memory; it is the way out of `Faulted`. -/
def Obligations.ResetInputRestoresResetStateAndKeepsMemory : Prop :=
  ∀ s : State, (∀ k, (resetInput s).reg k = 0#32) ∧
    (resetInput s).flags = { n := false, z := false, c := false, v := false, t := false } ∧
    (resetInput s).run = .running ∧ (resetInput s).mem = s.mem ∧ (s.Inv → (resetInput s).Inv)

/-- R225 (decision D17): a faulted core takes no step, however many are asked for; only a faulted core stops, and a step never
refuses. -/
def Obligations.FaultedCoreTakesNoStep : Prop :=
  (∀ (s : State) (c : Cause) (n : Nat), s.run = .faulted c → Sys2Proof.core.run (n + 1) s = .fault (.stopped c)) ∧
    (∀ (s : State) (f : Fault), step s = .fault f → ∃ c, s.run = .faulted c ∧ f = .stopped c) ∧ (∀ (s : State) (r : Refusal), step s ≠ .refused r)

/-- R224 (decision D17): a step that raises a fatal error sets the latch and changes nothing else: registers (`x[15]` with
them), flags and memory are those of the start state. -/
def Obligations.FatalStepChangesOnlyTheLatch : Prop :=
  ∀ (s t : State) (c : Cause), step s = .next t → t.run = .faulted c →
    (∀ k, t.reg k = s.reg k) ∧ t.flags = s.flags ∧ t.mem = s.mem ∧ t = { s with run := .faulted c }

/-! ### Fetch and step -/

/-- R53: the fetched word holds the byte at address `a + k` in bits `8k+7 : 8k`, for `k = 0 .. 3`. -/
def Obligations.FetchedWordIsLittleEndian : Prop :=
  ∀ s : State, Fetchable s → ∃ w, fetchWord s = some w ∧
    ∀ k, k < 4 → w.extractLsb' (8 * k) 8 = s.mem.byteAt (s.pc.toNat + k)

/-- R52 (decision D18 names the error): a running core raises FetchFault exactly when `x[15]` is misaligned or the word does
not fit in the memory. -/
def Obligations.FetchFaultExactlyWhenMisalignedOrOutOfBounds : Prop :=
  ∀ s : State, s.run = .running →
    (step s = .next { s with run := .faulted .fetchFault } ↔ (s.pc.toNat % 4 ≠ 0 ∨ s.mem.size < s.pc.toNat + 4))

/-- R238: a running core whose four bytes at `x[15]` decode to `i` executes `i`; `x[15]` is aligned and in bounds. The model
adds nothing around `exec`: the meaning itself updates the PC. -/
def Obligations.StepExecutesTheInstructionAtThePc : Prop :=
  ∀ (s : State) (i : Instr), s.run = .running → Fetchable s →
    decode [s.mem.byteAt s.pc.toNat, s.mem.byteAt (s.pc.toNat + 1), s.mem.byteAt (s.pc.toNat + 2),
      s.mem.byteAt (s.pc.toNat + 3)] = .ok (i, []) →
    step s = exec i s

/-- R99, R101 to R103, R72 (decisions D5, D8): a running core raises UnknownOperation exactly on the words with condition field
0b1111 and on those of the spaces `w[27:26] = 01`, `w[27:25] = 100`, `w[27:26] = 11`, whatever the condition says. -/
def Obligations.UnknownOperationExactlyOnNonInstructions : Prop :=
  ∀ (s : State) (w : Word), s.run = .running → fetchWord s = some w →
    (step s = .next { s with run := .faulted .unknownOperation } ↔
      (w.extractLsb' 28 4 = 0b1111#4 ∨ w.extractLsb' 26 2 = 0b01#2 ∨ w.extractLsb' 25 3 = 0b100#3 ∨
        w.extractLsb' 26 2 = 0b11#2))

/-- R55, R36: no instruction loads or stores. A step leaves the memory as it is, and what it does to the registers, the flags
and the latch depends on the memory only through the fetched word: two states that agree but for memory, and fetch the same
word, step alike. -/
def Obligations.StepDependsOnMemoryOnlyThroughTheFetchedWord : Prop :=
  ∀ (s : State) (m : Memory), fetchWord (s.setMem m) = fetchWord s →
    (∀ t, step s = .next t → t.mem = s.mem ∧ step (s.setMem m) = .next (t.setMem m)) ∧
      (∀ f, step s = .fault f → step (s.setMem m) = .fault f)

/-- The loader (R252) and the canonical form of the memory: a word placed with `withFetchWord` is what the next fetch reads,
every other byte keeps its value, and the memory stays canonical. This rests on the model's memory layout (log 3, log 4). -/
def Obligations.PlacedWordIsTheOneFetched : Prop :=
  ∀ (s : State) (w : Nat), s.Inv → s.pc.toNat + 4 ≤ s.mem.size →
    fetchWord (s.withFetchWord 32 w) = some (BitVec.ofNat 32 w) ∧ (s.withFetchWord 32 w).Inv ∧
      (∀ a, a < s.pc.toNat ∨ s.pc.toNat + 4 ≤ a → (s.withFetchWord 32 w).mem.byteAt a = s.mem.byteAt a)

/-! ### Encoding -/

/-- Words written out from the spec's tables (95_test_vectors.md section 3, whose codes are general knowledge, G1 to G5). -/
def Obligations.SpecWordsDecodeAsTabulated : Prop :=
  decodeWord 0xE0910002#32 = .ok (.add { cond := .al, s := true, rn := 1, rd := 0, op2 := .regImm 2 .lsl 0 }) ∧
    decodeWord 0xE3A004FF#32 = .ok (.mov { cond := .al, s := false, rn := 0, rd := 0, op2 := .imm 4 0xFF }) ∧
    decodeWord 0xE1A00251#32 = .ok (.mov { cond := .al, s := false, rn := 0, rd := 0, op2 := .regReg 1 .asr 2 }) ∧
    decodeWord 0xE1515002#32 = .ok (.cmp { cond := .al, s := true, rn := 1, rd := 5, op2 := .regImm 2 .lsl 0 }) ∧
    decodeWord 0x1B000002#32 = .ok (.bl .ne 8#32) ∧ decodeWord 0xEA800000#32 = .ok (.b .al 0xFE000000#32) ∧
    decodeWord 0x012FFF13#32 = .ok (.bx .eq 3) ∧
    decodeWord 0xE12FFF31#32 = .ok (.teq { cond := .al, s := false, rn := 15, rd := 15, op2 := .regReg 1 .lsr 15 })

/-- R73, R75: the fields of a decoded data-processing word are the bits of the word that the layout names, and the operation
is the one that bits 24:21 select. Which operation has which code is decision D6 (G1) and no part of this statement. -/
def Obligations.DataProcessingFieldsAreTheWordsBits : Prop :=
  ∀ (w : Word) (i : Instr) (d : DPFields), decodeWord w = .ok i → dpFields? i = some d →
    i = Instr.ofOpcode (w.extractLsb' 21 4) d ∧
      d.cond.code = w.extractLsb' 28 4 ∧ d.s = w.getLsbD 20 ∧ d.rn.val = (w.extractLsb' 16 4).toNat ∧
      d.rd.val = (w.extractLsb' 12 4).toNat ∧
      (w.getLsbD 25 = true ↔ d.op2 = .imm (w.extractLsb' 8 4) (w.extractLsb' 0 8))

/-- R77 (the position of the shift type in the second sub-form is decision D9, and its codes are general knowledge, G3): the
fields of the two register forms of operand 2, told apart by bit 4. -/
def Obligations.RegisterOperandFieldsAreTheWordsBits : Prop :=
  ∀ (w : Word) (i : Instr) (d : DPFields), decodeWord w = .ok i → dpFields? i = some d → w.getLsbD 25 = false →
    (w.getLsbD 4 = false → ∃ rm st, d.op2 = .regImm rm st (w.extractLsb' 7 5) ∧
        rm.val = (w.extractLsb' 0 4).toNat ∧ st.code = w.extractLsb' 5 2) ∧
      (w.getLsbD 4 = true → ∃ rm st rs, d.op2 = .regReg rm st rs ∧
        rm.val = (w.extractLsb' 0 4).toNat ∧ st.code = w.extractLsb' 5 2 ∧ rs.val = (w.extractLsb' 8 4).toNat)

/-- R72, R86 to R88 (decision D5, G5): the BX pattern wins over the data-processing reading, for every condition and Rm. -/
def Obligations.BxPatternIsNeverDataProcessing : Prop :=
  ∀ (w : Word) (c : Cond), c.code = w.extractLsb' 28 4 → w.extractLsb' 4 24 = 0x12FFF1#24 →
    ∃ rm : Reg, decodeWord w = .ok (.bx c rm) ∧ rm.val = (w.extractLsb' 0 4).toNat

/-- R79 (decision D10): bit 7 of a register-amount word does not matter, unless flipping it gives or leaves BX's pattern
(R87). -/
def Obligations.BitSevenOfRegisterAmountFormIsIgnored : Prop :=
  ∀ w : Word, w.extractLsb' 25 3 = 0b000#3 → w.getLsbD 4 = true → w.extractLsb' 4 24 ≠ 0x12FFF1#24 →
    (w ^^^ 0x80#32).extractLsb' 4 24 ≠ 0x12FFF1#24 → decodeWord (w ^^^ 0x80#32) = decodeWord w

/-- R93 ("derived", from R72): a word is an instruction exactly when its condition is defined and it lies in class 00 or in
class 101. -/
def Obligations.InstructionWordsArePartitioned : Prop :=
  ∀ w : Word, (∃ i, decodeWord w = .ok i) ↔
    (w.extractLsb' 28 4 ≠ 0b1111#4 ∧ (w.extractLsb' 26 2 = 0b00#2 ∨ w.extractLsb' 25 3 = 0b101#3))

/-- R90 ("derived"): the no-shift register form built field by field decodes to its operation and its three registers, for
every opcode and every register index; operation codes as R80 (G1). -/
def Obligations.RegisterFormRoundTrips : Prop :=
  ∀ (op ra rd rb : BitVec 4),
    decodeWord (0xE0000000#32 ||| (op.setWidth 32 <<< 21) ||| (ra.setWidth 32 <<< 16) ||| (rd.setWidth 32 <<< 12) |||
        rb.setWidth 32) =
      .ok (Instr.ofOpcode op { cond := .al, s := false, rn := ra.toFin, rd := rd.toFin, op2 := .regImm rb.toFin .lsl 0#5 })

/-- Decode and encode agree: decoding the word of any well-formed instruction gives it back, with every operand. -/
def Obligations.DecodeOfEncodeIsIdentity : Prop :=
  ∀ i : Instr, i.wf = true → decodeWord (encode i) = .ok i ∧ decode (bytesOfWord (encode i)) = .ok (i, [])

/-- The other direction: encoding what a word decodes to gives the word back, but for the ignored bit 7 of the register-amount
form (R79; log 9). -/
def Obligations.EncodeOfDecodeIsTheWordUpToBitSeven : Prop :=
  ∀ (w : Word) (i : Instr), decodeWord w = .ok i →
    encode i = w ∨ (encode i = w ^^^ 0x80#32 ∧ w.extractLsb' 25 3 = 0b000#3 ∧ w.getLsbD 4 = true)

/-- R201 ("derived"), R83, R76, R84, R88: whatever a word decodes to is well formed (a branch offset is a multiple of 4 in range),
and its decoded form holds the raw word beside the instruction. -/
def Obligations.DecodedInstructionsAreWellFormed : Prop :=
  ∀ (w : Word) (i : Instr), decodeWord w = .ok i → i.wf = true ∧ classify w = .ok { raw := w, instr := i }

/-! ### Conditions -/

/-- R120: what each of the 15 conditions tests. -/
def Obligations.ConditionsTestTheTabulatedFlags : Prop :=
  ∀ f : StatusReg,
    (condPassed .eq f = true ↔ f.z = true) ∧ (condPassed .ne f = true ↔ f.z = false) ∧
    (condPassed .cs f = true ↔ f.c = true) ∧ (condPassed .cc f = true ↔ f.c = false) ∧
    (condPassed .mi f = true ↔ f.n = true) ∧ (condPassed .pl f = true ↔ f.n = false) ∧
    (condPassed .vs f = true ↔ f.v = true) ∧ (condPassed .vc f = true ↔ f.v = false) ∧
    (condPassed .hi f = true ↔ f.c = true ∧ f.z = false) ∧ (condPassed .ls f = true ↔ f.c = false ∨ f.z = true) ∧
    (condPassed .ge f = true ↔ f.n = f.v) ∧ (condPassed .lt f = true ↔ f.n ≠ f.v) ∧
    (condPassed .gt f = true ↔ f.z = false ∧ f.n = f.v) ∧ (condPassed .le f = true ↔ f.z = true ∨ f.n ≠ f.v) ∧
    condPassed .al f = true

/-- R121: an instruction whose condition fails changes nothing but the PC, which advances by 4, and reports no warning and no
error, for all three classes. That it reports no warning is decision D15 with the order of D24, which the document does not
settle (C6, U22); that BX with Rm = 15 is the one form with a check before the condition is decision D19 (R205; its statement
is BranchAndExchangeInEveryForm). All three are log 8. -/
def Obligations.FailedConditionOnlyAdvancesThePc : Prop :=
  ∀ (i : Instr) (s : State), condPassed i.cond s.flags = false → (∀ c, i ≠ .bx c Config.pc) →
    ExecMovesPc i s (s.pc + 4#32) ∧
      (effectOf i s).result = { nextPc := s.pc + 4#32, shouldHalt := false, errorCode := .none }

/-- R124 ("derived"): after CMP the conditions read as comparisons of `a = x[Rn]` with `b = op2`, unsigned and signed; the same
after SUB with S = 1, and after RSB with S = 1 with the operands exchanged. -/
def Obligations.ConditionsReadAsComparisonsAfterCompare : Prop :=
  ∀ (d : DPFields) (s : State) (a b : Word) (t : State),
    condPassed d.cond s.flags = true →
    ((exec (.cmp d) s = .next t ∧ a = s.reg d.rn ∧ b = operand2 d.op2 s) ∨
      (exec (.sub d) s = .next t ∧ d.s = true ∧ a = s.reg d.rn ∧ b = operand2 d.op2 s) ∨
      (exec (.rsb d) s = .next t ∧ d.s = true ∧ a = operand2 d.op2 s ∧ b = s.reg d.rn)) →
    (condPassed .eq t.flags = true ↔ a = b) ∧ (condPassed .ne t.flags = true ↔ a ≠ b) ∧
    (condPassed .cs t.flags = true ↔ b.toNat ≤ a.toNat) ∧ (condPassed .cc t.flags = true ↔ a.toNat < b.toNat) ∧
    (condPassed .hi t.flags = true ↔ b.toNat < a.toNat) ∧ (condPassed .ls t.flags = true ↔ a.toNat ≤ b.toNat) ∧
    (condPassed .ge t.flags = true ↔ b.toInt ≤ a.toInt) ∧ (condPassed .lt t.flags = true ↔ a.toInt < b.toInt) ∧
    (condPassed .gt t.flags = true ↔ b.toInt < a.toInt) ∧ (condPassed .le t.flags = true ↔ a.toInt ≤ b.toInt)

/-! ### Flag helpers -/

/-- R113, R115: carry after an addition is the unbounded sum reaching 2^32, overflow the signed sum leaving
-2^31 .. 2^31 - 1 (the document's two properties). -/
def Obligations.AdditionFlagsAreCarryAndSignedRange : Prop :=
  ∀ a b : Word, (extractCarryAdd a b = true ↔ 2 ^ 32 ≤ a.toNat + b.toNat) ∧
    (extractOverflowAdd a b (a + b) = true ↔ (a.toInt + b.toInt < -2 ^ 31 ∨ 2 ^ 31 - 1 < a.toInt + b.toInt))

/-- R114 and R118 (its range form is "derived"): carry after a subtraction is "no borrow", overflow the signed difference
leaving -2^31 .. 2^31 - 1. -/
def Obligations.SubtractionFlagsAreNoBorrowAndSignedRange : Prop :=
  ∀ a b : Word, (extractCarrySub a b = true ↔ b.toNat ≤ a.toNat) ∧
    (extractOverflowSub a b (a - b) = true ↔ (a.toInt - b.toInt < -2 ^ 31 ∨ 2 ^ 31 - 1 < a.toInt - b.toInt))

/-! ### The second operand -/

/-- R141: the immediate operand is the zero-extended 8-bit value rotated right by `2 * rot`, bit by bit; it reads nothing of
the state. -/
def Obligations.ImmediateOperandIsRotatedRight : Prop :=
  ∀ (rot : BitVec 4) (imm8 : BitVec 8) (s : State) (j : Nat), j < 32 →
    (operand2 (.imm rot imm8) s).getLsbD j = imm8.getLsbD ((j + 2 * rot.toNat) % 32)

/-- R143 to R149 (decisions D11, D12): bit `j` of a shifted register, for EVERY amount: the immediate one and the low byte of
`x[Rs]`. Amount 0 is no shift, amounts of 32 and more give zeros, the sign fill, or a rotation modulo 32. -/
def Obligations.ShiftedOperandBitByBit : Prop :=
  ∀ (rm rs : Reg) (st : ShiftType) (shamt : BitVec 5) (s : State) (op2 : Operand2) (n j : Nat), j < 32 →
    ((op2 = .regImm rm st shamt ∧ n = shamt.toNat) ∨ (op2 = .regReg rm st rs ∧ n = (s.reg rs).toNat % 256)) →
    (st = .lsl → (operand2 op2 s).getLsbD j = (decide (n ≤ j) && (s.reg rm).getLsbD (j - n))) ∧
    (st = .lsr → (operand2 op2 s).getLsbD j = (s.reg rm).getLsbD (j + n)) ∧
    (st = .asr → (operand2 op2 s).getLsbD j = if j + n < 32 then (s.reg rm).getLsbD (j + n) else (s.reg rm).getLsbD 31) ∧
    (st = .ror → (operand2 op2 s).getLsbD j = (s.reg rm).getLsbD ((j + n) % 32))

/-- R29 (decision D3): register 15 read as Rn, Rm or Rs is the address of the instruction itself, with no offset. -/
def Obligations.RegisterFifteenReadsTheInstructionAddress : Prop :=
  (∀ (d : DPFields) (s : State), d.rn = Config.pc → operand1 d s = s.pc) ∧
    (∀ (s : State) (st : ShiftType), operand2 (.regImm Config.pc st 0#5) s = s.pc) ∧
    (∀ (s : State) (rm : Reg), operand2 (.regReg rm .lsl Config.pc) s = s.reg rm <<< (s.pc.toNat % 256)) ∧
    (∀ (s : State) (c : Cond), condPassed c s.flags = true →
      ∃ t, exec (.mov { cond := c, s := false, rn := 0, rd := 0, op2 := .regImm Config.pc .lsl 0#5 }) s = .next t ∧
        t.reg 0 = s.pc)

/-! ### Data-processing instructions

In every statement `a = x[Rn]` and `b` is operand 2, both from the start state; an index of 15 reads `pc` (D3) and Rd = 15 is
superseded by the PC update (D4). The opcode numbers are R80's (G1). -/

/-- R168, R169, R170: AND, ORR, EOR: encoding, result, flags, frame. The opcode numbers and the class selector 00 of the encoding
clauses are general knowledge (D6, D5; G1, G4; log 7). -/
def Obligations.AndOrrEorWriteTheBitwiseResult : Prop :=
  WordsOf 0b0000#4 .and ∧ WordsOf 0b1100#4 .orr ∧ WordsOf 0b0001#4 .eor ∧
    ∀ (d : DPFields) (s : State) (a b : Word), condPassed d.cond s.flags = true → a = s.reg d.rn → b = operand2 d.op2 s →
      ExecWrites (.and d) d s (a &&& b) (logicalOutcome s.flags (a &&& b)) ∧
        ExecWrites (.orr d) d s (a ||| b) (logicalOutcome s.flags (a ||| b)) ∧
        ExecWrites (.eor d) d s (a ^^^ b) (logicalOutcome s.flags (a ^^^ b))

/-- R172: ADD: encoding, result modulo 2^32, flags, frame. The opcode number and the class selector 00 of the encoding clause are
general knowledge (D6, D5; G1, G4; log 7). -/
def Obligations.AddWritesTheSum : Prop :=
  WordsOf 0b0100#4 .add ∧
    ∀ (d : DPFields) (s : State) (a b : Word), condPassed d.cond s.flags = true → a = s.reg d.rn → b = operand2 d.op2 s →
      ExecWrites (.add d) d s (a + b) (sumOutcome s.flags a b)

/-- R173: SUB: encoding, result modulo 2^32, flags, frame. V is in the range form, which R118 marks "derived"; the opcode number
and the class selector 00 of the encoding clause are general knowledge (D6, D5; G1, G4; log 7). -/
def Obligations.SubWritesTheDifference : Prop :=
  WordsOf 0b0010#4 .sub ∧
    ∀ (d : DPFields) (s : State) (a b : Word), condPassed d.cond s.flags = true → a = s.reg d.rn → b = operand2 d.op2 s →
      ExecWrites (.sub d) d s (a - b) (differenceOutcome s.flags a b)

/-- R174: RSB: the reversed pair, for result and flags alike; encoding, frame. V is in the range form, which R118 marks
"derived"; the opcode number and the class selector 00 of the encoding clause are general knowledge (D6, D5; G1, G4; log 7). -/
def Obligations.RsbWritesTheReversedDifference : Prop :=
  WordsOf 0b0011#4 .rsb ∧
    ∀ (d : DPFields) (s : State) (a b : Word), condPassed d.cond s.flags = true → a = s.reg d.rn → b = operand2 d.op2 s →
      ExecWrites (.rsb d) d s (b - a) (differenceOutcome s.flags b a)

/-- R175: ADC: `b' = (b + C) mod 2^32`, result and flags from the pair `(a, b')`; encoding, frame. The second clause is R175's
corner cases ("derived"): C and V are those of the exact three-input sum but in two situations, and there they are the
complement. The opcode number and the class selector 00 of the encoding clause are general
knowledge (D6, D5; G1, G4; log 7). -/
def Obligations.AdcFoldsTheCarryIntoOperandTwo : Prop :=
  WordsOf 0b0101#4 .adc ∧
    (∀ (d : DPFields) (s : State) (a b : Word), condPassed d.cond s.flags = true → a = s.reg d.rn → b = operand2 d.op2 s →
      ExecWrites (.adc d) d s (a + b + (if s.flags.c = true then 1#32 else 0#32))
        (sumOutcome s.flags a (b + (if s.flags.c = true then 1#32 else 0#32)))) ∧
    (∀ (d : DPFields) (s : State) (a b : Word) (t : State), condPassed d.cond s.flags = true → d.s = true → a = s.reg d.rn → b = operand2 d.op2 s →
      exec (.adc d) s = .next t →
      (t.flags.c = true ↔
        (2 ^ 32 ≤ a.toNat + b.toNat + s.flags.c.toNat ∧ ¬(b = 0xFFFFFFFF#32 ∧ s.flags.c = true))) ∧
      ((t.flags.v = true ↔
          (a.toInt + b.toInt + s.flags.c.toNat < -2 ^ 31 ∨ 2 ^ 31 ≤ a.toInt + b.toInt + s.flags.c.toNat)) ↔
        ¬(b = 0x7FFFFFFF#32 ∧ s.flags.c = true)))

/-- R176 (polarity by decision D13): SBC: `b' = (b + (1 - C)) mod 2^32`, result and flags from the pair `(a, b')`; encoding,
frame, and the two corner cases. The opcode number and the class selector 00 of the encoding clause are general
knowledge (D6, D5; G1, G4; log 7). -/
def Obligations.SbcFoldsTheBorrowIntoOperandTwo : Prop :=
  WordsOf 0b0110#4 .sbc ∧
    (∀ (d : DPFields) (s : State) (a b : Word), condPassed d.cond s.flags = true → a = s.reg d.rn → b = operand2 d.op2 s →
      ExecWrites (.sbc d) d s (a - b - (if s.flags.c = true then 0#32 else 1#32))
        (differenceOutcome s.flags a (b + (if s.flags.c = true then 0#32 else 1#32)))) ∧
    (∀ (d : DPFields) (s : State) (a b : Word) (t : State), condPassed d.cond s.flags = true → d.s = true → a = s.reg d.rn → b = operand2 d.op2 s →
      exec (.sbc d) s = .next t →
      (t.flags.c = true ↔
        (b.toNat + (!s.flags.c).toNat ≤ a.toNat ∨ (b = 0xFFFFFFFF#32 ∧ s.flags.c = false))) ∧
      ((t.flags.v = true ↔
          (a.toInt - b.toInt - (!s.flags.c).toNat < -2 ^ 31 ∨ 2 ^ 31 ≤ a.toInt - b.toInt - (!s.flags.c).toNat)) ↔
        ¬(b = 0x7FFFFFFF#32 ∧ s.flags.c = false)))

/-- R177 (decision D13): RSC: the fold goes into the subtrahend `x[Rn]`: `a' = (a + (1 - C)) mod 2^32`, result and flags from
the pair `(b, a')`; encoding, frame, and the two corner cases. The opcode number and the class selector 00 of the encoding clause are general
knowledge (D6, D5; G1, G4; log 7). -/
def Obligations.RscFoldsTheBorrowIntoOperandOne : Prop :=
  WordsOf 0b0111#4 .rsc ∧
    (∀ (d : DPFields) (s : State) (a b : Word), condPassed d.cond s.flags = true → a = s.reg d.rn → b = operand2 d.op2 s →
      ExecWrites (.rsc d) d s (b - a - (if s.flags.c = true then 0#32 else 1#32))
        (differenceOutcome s.flags b (a + (if s.flags.c = true then 0#32 else 1#32)))) ∧
    (∀ (d : DPFields) (s : State) (a b : Word) (t : State), condPassed d.cond s.flags = true → d.s = true → a = s.reg d.rn → b = operand2 d.op2 s →
      exec (.rsc d) s = .next t →
      (t.flags.c = true ↔
        (a.toNat + (!s.flags.c).toNat ≤ b.toNat ∨ (a = 0xFFFFFFFF#32 ∧ s.flags.c = false))) ∧
      ((t.flags.v = true ↔
          (b.toInt - a.toInt - (!s.flags.c).toNat < -2 ^ 31 ∨ 2 ^ 31 ≤ b.toInt - a.toInt - (!s.flags.c).toNat)) ↔
        ¬(a = 0x7FFFFFFF#32 ∧ s.flags.c = false)))

/-- R178, R179: TST and TEQ: encoding, N and Z of the discarded result whatever S is, no register written, frame. The opcode
numbers, the class selector 00 and the BX pattern left out of the encoding clauses are general knowledge (D6, D5; G1, G4, G5;
log 7). -/
def Obligations.TstTeqSetOnlyNAndZ : Prop :=
  WordsOf 0b1000#4 .tst ∧ WordsOf 0b1001#4 .teq ∧
    ∀ (d : DPFields) (s : State) (a b : Word), condPassed d.cond s.flags = true → a = s.reg d.rn → b = operand2 d.op2 s →
      ExecCompares (.tst d) s (logicalOutcome s.flags (a &&& b)) ∧
        ExecCompares (.teq d) s (logicalOutcome s.flags (a ^^^ b))

/-- R180, R181: CMP and CMN: encoding, the four flags of `a - b` and of `a + b` whatever S is, no register written, frame. CMP's
V is in the range form, which R118 marks "derived"; the opcode numbers and the class selector 00 of the encoding clauses are
general knowledge (D6, D5; G1, G4; log 7). -/
def Obligations.CmpCmnSetTheFourFlags : Prop :=
  WordsOf 0b1010#4 .cmp ∧ WordsOf 0b1011#4 .cmn ∧
    ∀ (d : DPFields) (s : State) (a b : Word), condPassed d.cond s.flags = true → a = s.reg d.rn → b = operand2 d.op2 s →
      ExecCompares (.cmp d) s (differenceOutcome s.flags a b) ∧ ExecCompares (.cmn d) s (sumOutcome s.flags a b)

/-- R182: MOV: encoding, operand 2 whatever Rn is, N and Z only, frame. The opcode number and the class selector 00 of the
encoding clause are general knowledge (D6, D5; G1, G4; log 7). -/
def Obligations.MovWritesOperandTwo : Prop :=
  WordsOf 0b1101#4 .mov ∧
    ∀ (d : DPFields) (s : State) (b : Word), condPassed d.cond s.flags = true → b = operand2 d.op2 s →
      ExecWrites (.mov d) d s b (logicalOutcome s.flags b)

/-- R171 and R183: BIC (its formula is general knowledge, G8) and MVN (flags and unused Rn by decision D14): encoding, result,
N and Z only, frame. The opcode number and the class selector 00 of the encoding clause are general
knowledge (D6, D5; G1, G4; log 7). -/
def Obligations.BicMvnWriteWithTheComplement : Prop :=
  WordsOf 0b1110#4 .bic ∧ WordsOf 0b1111#4 .mvn ∧
    ∀ (d : DPFields) (s : State) (a b : Word), condPassed d.cond s.flags = true → a = s.reg d.rn → b = operand2 d.op2 s →
      ExecWrites (.bic d) d s (a &&& ~~~b) (logicalOutcome s.flags (a &&& ~~~b)) ∧
        ExecWrites (.mvn d) d s (~~~b) (logicalOutcome s.flags (~~~b))

/-- R31 (decision D4): a result-writing instruction with Rd = 15 is no jump: the PC is `pc + 4` whatever the result, every
other register keeps its value, and the flags are those that any other Rd would give. -/
def Obligations.WritingRegisterFifteenIsNoJump : Prop :=
  ∀ (op : BitVec 4) (d : DPFields) (s : State), resultFields? (Instr.ofOpcode op d) = some d → d.rd = Config.pc →
    condPassed d.cond s.flags = true →
    ∃ t, exec (Instr.ofOpcode op d) s = .next t ∧ t.pc = s.pc + 4#32 ∧ RegsUnchanged s t ∧ t.run = s.run ∧
      ∀ k t', exec (Instr.ofOpcode op { d with rd := k }) s = .next t' → t'.flags = t.flags

/-- R172, R175, R256: ADD with S = 1 on the low words, then ADC on the high words, leaves the 64-bit sum. -/
def Obligations.AddsThenAdcIsSixtyFourBitAddition : Prop :=
  ∀ (s t u : State) (l0 l1 h0 h1 dl dh : Reg),
    dl ≠ Config.pc → dh ≠ Config.pc → dh ≠ dl → h0 ≠ dl → h1 ≠ dl → h0 ≠ Config.pc → h1 ≠ Config.pc →
    exec (.add { cond := .al, s := true, rn := l0, rd := dl, op2 := .regImm l1 .lsl 0#5 }) s = .next t →
    exec (.adc { cond := .al, s := false, rn := h0, rd := dh, op2 := .regImm h1 .lsl 0#5 }) t = .next u →
    u.reg dh ++ u.reg dl = (s.reg h0 ++ s.reg l0) + (s.reg h1 ++ s.reg l1)

/-- R173, R176 (the polarity is decision D13), R256: SUB with S = 1 on the low words, then SBC on the high words, leaves the
64-bit difference. -/
def Obligations.SubsThenSbcIsSixtyFourBitSubtraction : Prop :=
  ∀ (s t u : State) (l0 l1 h0 h1 dl dh : Reg),
    dl ≠ Config.pc → dh ≠ Config.pc → dh ≠ dl → h0 ≠ dl → h1 ≠ dl → h0 ≠ Config.pc → h1 ≠ Config.pc →
    exec (.sub { cond := .al, s := true, rn := l0, rd := dl, op2 := .regImm l1 .lsl 0#5 }) s = .next t →
    exec (.sbc { cond := .al, s := false, rn := h0, rd := dh, op2 := .regImm h1 .lsl 0#5 }) t = .next u →
    u.reg dh ++ u.reg dl = (s.reg h0 ++ s.reg l0) - (s.reg h1 ++ s.reg l1)

/-! ### Branches -/

/-- R202: B: encoding, the target `pc + offset` modulo 2^32 from the address of the B itself, the fall-through when the
condition fails, the step result, frame. -/
def Obligations.BranchAddsTheOffsetToItsOwnAddress : Prop :=
  BranchWordsOf false .b ∧
    ∀ (c : Cond) (offset : Word) (s : State) (target : Word),
      target = (if condPassed c s.flags = true then s.pc + offset else s.pc + 4#32) →
        ExecMovesPc (.b c offset) s target ∧
          (effectOf (.b c offset) s).result = { nextPc := target, shouldHalt := false, errorCode := .none }

/-- R203: BL: encoding; `x[14]` is `((pc - 4) mod 2^32) AND 0xFFFFFFFC` and the target `pc + offset`, both from the same `pc`;
the fall-through writes no link register; frame. -/
def Obligations.BranchAndLinkStoresPcMinusFour : Prop :=
  BranchWordsOf true .bl ∧
    ∀ (c : Cond) (offset : Word) (s : State),
      (condPassed c s.flags = false → ExecMovesPc (.bl c offset) s (s.pc + 4#32)) ∧
      (condPassed c s.flags = true →
        ∃ t, exec (.bl c offset) s = .next t ∧ t.reg Config.lr = (s.pc - 4#32) &&& 0xFFFFFFFC#32 ∧
          t.pc = s.pc + offset ∧ RegsUnchangedBut Config.lr s t ∧ t.flags = s.flags ∧ t.run = s.run ∧
          MemoryUnchanged s t)

/-- R207 (with R205, whose order is decision D19, and the pattern of R87, G5): every form of BX: Rm = 15 is fatal before the
condition; a failed condition only advances; bit 0 of the target is fatal; otherwise the PC is the target with its low two
bits cleared, and nothing else changes. -/
def Obligations.BranchAndExchangeInEveryForm : Prop :=
  ∀ (c : Cond) (rm : Reg) (s : State),
    (rm = Config.pc → exec (.bx c rm) s = .next { s with run := .faulted .bxPcOperand }) ∧
    (rm ≠ Config.pc → condPassed c s.flags = false → ExecMovesPc (.bx c rm) s (s.pc + 4#32)) ∧
    (rm ≠ Config.pc → condPassed c s.flags = true → (s.reg rm).getLsbD 0 = true →
      exec (.bx c rm) s = .next { s with run := .faulted .unsupportedMode }) ∧
    (rm ≠ Config.pc → condPassed c s.flags = true → (s.reg rm).getLsbD 0 = false →
      ExecMovesPc (.bx c rm) s (s.reg rm &&& 0xFFFFFFFC#32) ∧
        (effectOf (.bx c rm) s).result =
          { nextPc := s.reg rm &&& 0xFFFFFFFC#32, shouldHalt := false, errorCode := .none })

/-- R206: BX to a Thumb target raises UnsupportedMode and changes no register (`x[15]` with them), no flag (T with them) and
no memory; bit 0 alone is tested, so a target with low bits 10 raises nothing. -/
def Obligations.BxToThumbTargetIsFatal : Prop :=
  ∀ (c : Cond) (rm : Reg) (s : State), rm ≠ Config.pc → condPassed c s.flags = true →
    ((effectOf (.bx c rm) s).result.errorCode = .fatal .unsupportedMode ↔ (s.reg rm).getLsbD 0 = true) ∧
    ((s.reg rm).getLsbD 0 = true →
      ∃ t, exec (.bx c rm) s = .next t ∧ (∀ k, t.reg k = s.reg k) ∧ t.flags = s.flags ∧ t.mem = s.mem) ∧
    ((s.reg rm).getLsbD 0 = false →
      (effectOf (.bx c rm) s).result.errorCode = .none ∧ ∃ t, exec (.bx c rm) s = .next t ∧ t.run = s.run)

/-- R208: after any branch or BX that the decoder can give, from an aligned PC, register 15 holds a multiple of 4. -/
def Obligations.BranchTargetsAreWordAligned : Prop :=
  ∀ (w : Word) (i : Instr) (s t : State), decodeWord w = .ok i → ((∃ c o, i = .b c o) ∨ (∃ c o, i = .bl c o) ∨ (∃ c rm, i = .bx c rm)) →
    s.pc.toNat % 4 = 0 → exec i s = .next t → (t.reg Config.pc).toNat % 4 = 0

/-- R223 (decision D20): a branch to itself whose condition passes is a fixed point of the step, for any number of steps. -/
def Obligations.BranchToSelfIsAFixedPoint : Prop :=
  ∀ (s : State) (c : Cond) (w : Word) (n : Nat), s.run = .running → fetchWord s = some w → decodeWord w = .ok (.b c 0#32) → condPassed c s.flags = true →
    step s = .next s ∧ Sys2Proof.core.run n s = .next s

/-! ### The step result -/

/-- R221, R30: the step result and the state agree: on a non-faulting step `x[15]` is `next_pc`; a fatal code is the cause in
the latch, with `next_pc = pc + 4` reported and not applied (R224, decision D17). -/
def Obligations.StepResultAgreesWithTheNextState : Prop :=
  ∀ (s t : State) (r : ExecResult), step s = .next t → stepResult s = some r →
    (CompletesTo s t → t.pc = r.nextPc ∧ (r.errorCode = .none ∨ r.errorCode = .pcUsedAsOperand)) ∧
      (∀ c, t.run = .faulted c ↔ r.errorCode = .fatal c) ∧ (∀ c, t.run = .faulted c → r.nextPc = s.pc + 4#32)

/-- R163 (decision D15): the warning is reported exactly for a data-processing instruction whose condition passed and whose Rn
field, or Rm field in a register form, is 15. -/
def Obligations.PcOperandWarningExactly : Prop :=
  ∀ (s : State) (w : Word) (i : Instr), s.run = .running → fetchDecode s = .ok ⟨w, i⟩ →
    ((∃ r, stepResult s = some r ∧ r.errorCode = .pcUsedAsOperand) ↔
      ∃ d, dpFields? i = some d ∧ condPassed d.cond s.flags = true ∧
        (d.rn = Config.pc ∨ ∃ rm st, rm = Config.pc ∧
          ((∃ n, d.op2 = .regImm rm st n) ∨ (∃ rs, d.op2 = .regReg rm st rs))))

/-- R222 (decision D20): `should_halt` is false on every step result; R225: there is a result exactly when a step is taken. -/
def Obligations.NoStepResultHalts : Prop :=
  ∀ s : State, (∀ r, stepResult s = some r → r.shouldHalt = false) ∧
    ((∃ r, stepResult s = some r) ↔ s.run = .running) ∧ ((∃ r, stepResult s = some r) ↔ ∃ t, step s = .next t)

/-- R162 ("derived"): no step ever raises InvalidRegisterIndex. -/
def Obligations.InvalidRegisterIndexIsNeverRaised : Prop :=
  ∀ s t : State, step s = .next t → t.run ≠ .faulted .invalidRegisterIndex

/-! ### The machine as a whole -/

/-- R55, R59: no number of steps changes the memory. -/
def Obligations.MemoryIsConstantAlongEveryRun : Prop :=
  ∀ (n : Nat) (s t : State), Sys2Proof.core.run n s = .next t → t.mem = s.mem ∧ ∀ a, t.mem.byteAt a = s.mem.byteAt a

/-- R32, R26, R200: who writes the flags. T never changes; a branch or a failed condition changes no flag; a result-writing
instruction with S = 0 changes none; a logical one never changes C or V. -/
def Obligations.FlagsAreWrittenOnlyByTheirWriters : Prop :=
  ∀ (i : Instr) (s t : State), exec i s = .next t →
    t.flags.t = s.flags.t ∧
      (condPassed i.cond s.flags = false → t.flags = s.flags) ∧
      (dpFields? i = none → t.flags = s.flags) ∧
      (∀ d, resultFields? i = some d → d.s = false → t.flags = s.flags) ∧
      (isLogical i = true → t.flags.c = s.flags.c ∧ t.flags.v = s.flags.v)

/-- R22, R165, R200: who writes the registers. A register other than the PC changes only as the Rd of a result-writing
instruction or as the link register of a BL, and only when the condition passes. -/
def Obligations.RegistersAreWrittenOnlyByTheirWriters : Prop :=
  ∀ (i : Instr) (s t : State) (k : Reg), exec i s = .next t → k ≠ Config.pc → t.reg k ≠ s.reg k →
    condPassed i.cond s.flags = true ∧
      ((∃ d, resultFields? i = some d ∧ d.rd = k) ∨ (k = Config.lr ∧ ∃ c o, i = .bl c o))

/-- R28, R30 (the complete list is R209, "derived"): every way `x[15]` changes. A step that faults leaves it; otherwise it is
`pc + 4`, but for a taken B or BL (`pc + offset`) and a taken BX (the target with its low two bits cleared). That a
data-processing instruction with Rd = 15 is among those that give `pc + 4` is decision D4 (log 8), and the latch by which a
faulting step is told is decision D17 (log 5). -/
def Obligations.PcChangesOnlyInTheListedWays : Prop :=
  ∀ s t : State, step s = .next t →
    ((∃ c, t.run = .faulted c) ∧ t.pc = s.pc) ∨
      (t.run = .running ∧ ∃ w i, fetchDecode s = .ok ⟨w, i⟩ ∧
        (condPassed i.cond s.flags = false → t.pc = s.pc + 4#32) ∧
        (∀ d, dpFields? i = some d → t.pc = s.pc + 4#32) ∧
        (∀ c o, i = .b c o ∨ i = .bl c o → condPassed c s.flags = true → t.pc = s.pc + o) ∧
        (∀ c rm, i = .bx c rm →
          rm ≠ Config.pc ∧ (condPassed c s.flags = true → t.pc = s.reg rm &&& 0xFFFFFFFC#32)))

/-- The invariant holds at reset: canonical memory with a legal size (log 1, log 2: the model's choices), T = 0, PC aligned. -/
def Obligations.InvariantHoldsAtReset : Prop := State.reset.Inv ∧ HostStart State.reset

/-- R39, R208, R26: from EVERY state that meets the invariant, a step gives a state that meets it: the PC stays a multiple of 4,
T stays 0, the memory stays canonical. -/
def Obligations.EveryStepKeepsTheInvariant : Prop :=
  ∀ s t : State, s.Inv → step s = .next t → t.Inv

/-- R39, R52, R225: along every run from a state that meets the invariant, of any length, the invariant holds, a core that is
still running has a next step, and nothing is ever refused. -/
def Obligations.RunsKeepTheInvariantAndNeverRefuse : Prop :=
  ∀ (n : Nat) (s : State), s.Inv →
    (∀ t, Sys2Proof.core.run n s = .next t → t.Inv ∧ (t.run = .running → ∃ u, step t = .next u)) ∧
      (∀ r, Sys2Proof.core.run n s ≠ .refused r)

/-- R25 (positions by general knowledge, decision D16; log 6): the 32-bit status value holds N, Z, C, V, T in bits 31, 30, 29,
28, 5 and 0 everywhere else. -/
def Obligations.StatusValueHasTheFiveFlagsInPlace : Prop :=
  ∀ f : StatusReg, ∀ j, j < 32 → f.packed.getLsbD j =
    ((decide (j = 31) && f.n) || (decide (j = 30) && f.z) || (decide (j = 29) && f.c) || (decide (j = 28) && f.v) ||
      (decide (j = 5) && f.t))
end

