-- ==== Sys2Proof/Laws/Decode.lean ====
section
/-!
SUPPORT. The code tables are inverse to each other, and the fields of the words the encoder builds.
-/
namespace Sys2Proof

@[simp] theorem ofCode_code (c : Cond) : Cond.ofCode c.code = some c := by cases c <;> rfl

theorem ofCode_eq_some {x : BitVec 4} {c : Cond} : Cond.ofCode x = some c ↔ c.code = x := by
  revert x; cases c <;> decide

theorem ofCode_eq_none {x : BitVec 4} : Cond.ofCode x = none ↔ x = 0b1111#4 := by
  revert x; decide

@[simp] theorem shiftOfCode_code (st : ShiftType) : ShiftType.ofCode st.code = st := by cases st <;> rfl

@[simp] theorem shiftCode_ofCode (x : BitVec 2) : (ShiftType.ofCode x).code = x := by revert x; decide

@[simp] theorem regBits_regField (w : Word) (lo : Nat) : regBits (regField w lo) = w.extractLsb' lo 4 := rfl

theorem regField_val (w : Word) (lo : Nat) : (regField w lo).val = (w.extractLsb' lo 4).toNat := rfl

/-- A register field whose bits are those of `r` is `r`. -/
theorem regField_eq {w : Word} {lo : Nat} {r : Reg} (h : w.extractLsb' lo 4 = regBits r) : regField w lo = r := by
  rw [regField, h]; rfl

/-- One bit of a word, as a field of width 1. -/
theorem getLsbD_eq_field (w : Word) (k : Nat) : w.getLsbD k = (w.extractLsb' k 1).getLsbD 0 := by simp

/-! ### The fields of an encoded word -/

theorem canonicalDP_cond (op : BitVec 4) (d : DPFields) : (canonicalDP op d).extractLsb' 28 4 = d.cond.code := by
  apply BitVec.eq_of_getLsbD_eq
  intro i hi
  simp only [canonicalDP, BitVec.getLsbD_extractLsb', BitVec.getLsbD_append]
  interval_cases i <;> simp

theorem canonicalDP_class (op : BitVec 4) (d : DPFields) : (canonicalDP op d).extractLsb' 26 2 = 0b00#2 := by
  apply BitVec.eq_of_getLsbD_eq
  intro i hi
  simp only [canonicalDP, BitVec.getLsbD_extractLsb', BitVec.getLsbD_append]
  interval_cases i <;> simp

theorem canonicalDP_immediate (op : BitVec 4) (d : DPFields) :
    (canonicalDP op d).getLsbD 25 = d.op2.immediateBit.getLsbD 0 := by
  simp only [canonicalDP, BitVec.getLsbD_append]
  simp

theorem canonicalDP_opcode (op : BitVec 4) (d : DPFields) : (canonicalDP op d).extractLsb' 21 4 = op := by
  apply BitVec.eq_of_getLsbD_eq
  intro i hi
  simp only [canonicalDP, BitVec.getLsbD_extractLsb', BitVec.getLsbD_append]
  interval_cases i <;> simp

theorem canonicalDP_s (op : BitVec 4) (d : DPFields) : (canonicalDP op d).getLsbD 20 = d.s := by
  simp only [canonicalDP, BitVec.getLsbD_append]
  simp

theorem canonicalDP_rn (op : BitVec 4) (d : DPFields) : (canonicalDP op d).extractLsb' 16 4 = regBits d.rn := by
  apply BitVec.eq_of_getLsbD_eq
  intro i hi
  simp only [canonicalDP, BitVec.getLsbD_extractLsb', BitVec.getLsbD_append]
  interval_cases i <;> simp

theorem canonicalDP_rd (op : BitVec 4) (d : DPFields) : (canonicalDP op d).extractLsb' 12 4 = regBits d.rd := by
  apply BitVec.eq_of_getLsbD_eq
  intro i hi
  simp only [canonicalDP, BitVec.getLsbD_extractLsb', BitVec.getLsbD_append]
  interval_cases i <;> simp

theorem canonicalDP_operand2 (op : BitVec 4) (d : DPFields) (j : Nat) (h : j < 12) :
    (canonicalDP op d).getLsbD j = (encodeOperand2 d.op2).getLsbD j := by
  simp only [canonicalDP, BitVec.getLsbD_append, h]
  simp

/-- The word of a data-processing instruction is the canonical one, but perhaps for the ignored bit 7 (R79). -/
theorem encodeDP_bit (op : BitVec 4) (d : DPFields) (j : Nat) (h : j ≠ 7) :
    (encodeDP op d).getLsbD j = (canonicalDP op d).getLsbD j := by
  have h80 : (0x80#32).getLsbD j = false := by
    by_cases hj : j < 32
    · interval_cases j <;> simp_all
    · exact BitVec.getLsbD_of_ge _ _ (by omega)
  simp only [encodeDP]
  split
  · rw [BitVec.getLsbD_or, h80, Bool.or_false]
  · rfl

/-- Above bit 7 every field of the word is the canonical word's. -/
theorem encodeDP_field (op : BitVec 4) (d : DPFields) (lo len : Nat) (h : 7 < lo ∨ lo + len ≤ 7) :
    (encodeDP op d).extractLsb' lo len = (canonicalDP op d).extractLsb' lo len := by
  apply BitVec.eq_of_getLsbD_eq
  intro i hi
  simp only [BitVec.getLsbD_extractLsb', hi, decide_true, Bool.true_and]
  exact encodeDP_bit op d (lo + i) (by omega)

/-- The word of a data-processing instruction never has BX's pattern (R72, R87). -/
theorem encodeDP_not_bx (op : BitVec 4) (d : DPFields) : (encodeDP op d).extractLsb' 4 24 ≠ bxPattern := by
  simp only [encodeDP]
  split
  · intro h
    have := congrArg (fun x => x.getLsbD 3) h
    simp [bxPattern] at this
  · assumption

/-- The condition field of each format's word (R71). -/
theorem encodeDP_cond (op : BitVec 4) (d : DPFields) : (encodeDP op d).extractLsb' 28 4 = d.cond.code := by
  rw [encodeDP_field op d 28 4 (by omega), canonicalDP_cond]

theorem encodeBranch_cond (c : Cond) (link : BitVec 1) (offset : Word) :
    (encodeBranch c link offset).extractLsb' 28 4 = c.code := by
  apply BitVec.eq_of_getLsbD_eq
  intro i hi
  simp only [encodeBranch, BitVec.getLsbD_extractLsb', BitVec.getLsbD_append]
  interval_cases i <;> simp

theorem encodeBranchExchange_cond (c : Cond) (rm : Reg) : (encodeBranchExchange c rm).extractLsb' 28 4 = c.code := by
  apply BitVec.eq_of_getLsbD_eq
  intro i hi
  simp only [encodeBranchExchange, BitVec.getLsbD_extractLsb', BitVec.getLsbD_append]
  interval_cases i <;> simp

/-- A word decodes as data-processing when its class field is 00 and BX's pattern is not there (R72). -/
theorem decodeWord_dataProcessing {w : Word} {c : Cond} (hc : c.code = w.extractLsb' 28 4)
    (hcls : w.extractLsb' 26 2 = 0b00#2) (hbx : w.extractLsb' 4 24 ≠ bxPattern) :
    decodeWord w = .ok (decodeDataProcessing c w).instr := by
  have h5 : w.extractLsb' 25 3 ≠ 0b101#3 := by
    intro h
    have h1 := congrArg (fun x => x.getLsbD 1) hcls
    have h2 := congrArg (fun x => x.getLsbD 2) h
    simp at h1 h2
    rw [h2] at h1
    cases h1
  simp only [decodeWord, classify, ofCode_eq_some.mpr hc, if_neg hbx, if_neg h5, if_pos hcls]

/-- A word decodes as a branch when its class field is 101 (R72). -/
theorem decodeWord_branch {w : Word} {c : Cond} (hc : c.code = w.extractLsb' 28 4)
    (hcls : w.extractLsb' 25 3 = 0b101#3) : decodeWord w = .ok (decodeBranch c w).instr := by
  have hbx : w.extractLsb' 4 24 ≠ bxPattern := by
    intro h
    have h1 := congrArg (fun x => x.getLsbD 23) h
    have h2 := congrArg (fun x => x.getLsbD 2) hcls
    simp [bxPattern] at h1 h2
    rw [h2] at h1
    cases h1
  simp only [decodeWord, classify, ofCode_eq_some.mpr hc, if_neg hbx, if_pos hcls]

/-- A word with BX's pattern decodes as BX (R72, R87). -/
theorem decodeWord_branchExchange {w : Word} {c : Cond} (hc : c.code = w.extractLsb' 28 4)
    (hbx : w.extractLsb' 4 24 = bxPattern) : decodeWord w = .ok (decodeBranchExchange c w).instr := by
  simp only [decodeWord, classify, ofCode_eq_some.mpr hc, if_pos hbx]

/-- What classification can answer, said once (R72). -/
theorem classify_cases {w : Word} {d : Decoded} (h : classify w = .ok d) :
    ∃ c, c.code = w.extractLsb' 28 4 ∧
      ((w.extractLsb' 4 24 = bxPattern ∧ d = decodeBranchExchange c w) ∨
        (w.extractLsb' 25 3 = 0b101#3 ∧ d = decodeBranch c w) ∨
        (w.extractLsb' 4 24 ≠ bxPattern ∧ w.extractLsb' 26 2 = 0b00#2 ∧ d = decodeDataProcessing c w)) := by
  unfold classify at h
  split at h
  · cases h
  · rename_i c hc
    refine ⟨c, ofCode_eq_some.mp hc, ?_⟩
    split at h
    · rename_i hbx
      cases h
      exact .inl ⟨hbx, rfl⟩
    · rename_i hbx
      split at h
      · rename_i hb
        cases h
        exact .inr (.inl ⟨hb, rfl⟩)
      · split at h
        · rename_i hcls
          cases h
          exact .inr (.inr ⟨hbx, hcls, rfl⟩)
        · cases h

/-- The decoded form of a word holds the word (R76, R84, R88). -/
theorem classify_raw {w : Word} {d : Decoded} (h : classify w = .ok d) : d.raw = w := by
  obtain ⟨_, _, ⟨_, rfl⟩ | ⟨_, rfl⟩ | ⟨_, _, rfl⟩⟩ := classify_cases h <;> rfl

/-- The instruction of a word is that of its decoded form. -/
theorem decodeWord_of_classify {w : Word} {d : Decoded} (h : classify w = .ok d) : decodeWord w = .ok d.instr := by
  simp only [decodeWord, h]

/-- A word that is an instruction has a decoded form, which holds both. -/
theorem classify_of_decodeWord {w : Word} {i : Instr} (h : decodeWord w = .ok i) : classify w = .ok ⟨w, i⟩ := by
  unfold decodeWord at h
  split at h
  · rename_i d hd
    cases h
    rw [hd, ← classify_raw hd]
  · cases h

/-- What decoding can answer, said once (R72). -/
theorem decodeWord_cases {w : Word} {i : Instr} (h : decodeWord w = .ok i) :
    ∃ c, c.code = w.extractLsb' 28 4 ∧
      ((w.extractLsb' 4 24 = bxPattern ∧ i = (decodeBranchExchange c w).instr) ∨
        (w.extractLsb' 25 3 = 0b101#3 ∧ i = (decodeBranch c w).instr) ∨
        (w.extractLsb' 4 24 ≠ bxPattern ∧ w.extractLsb' 26 2 = 0b00#2 ∧ i = (decodeDataProcessing c w).instr)) := by
  obtain ⟨c, hc, ⟨h, e⟩ | ⟨h, e⟩ | ⟨h, h', e⟩⟩ := classify_cases (classify_of_decodeWord h)
  · exact ⟨c, hc, .inl ⟨h, congrArg Decoded.instr e⟩⟩
  · exact ⟨c, hc, .inr (.inl ⟨h, congrArg Decoded.instr e⟩)⟩
  · exact ⟨c, hc, .inr (.inr ⟨h, h', congrArg Decoded.instr e⟩)⟩

/-- A word is rejected under the same name with and without the raw word. -/
theorem decodeWord_eq_error {w : Word} {e : DecodeError} : decodeWord w = .error e ↔ classify w = .error e := by
  unfold decodeWord
  split <;> simp_all

end Sys2Proof
end

