-- ==== Sys2Proof/Laws/Memory.lean ====
section
/-!
SUPPORT. The memory laws: a read after a write, and that every write keeps the canonical form.
-/
namespace Sys2Proof.Machine

/-- Reading any address after the loader wrote one byte, in a rising list of cells. -/
theorem readCells_writeCells (size : Nat) (cells : List Host.Cell) (a : Nat) (v : Byte) (x : Nat) :
    ∀ lo, cellsWf size lo cells = true → readCells (writeCells cells a v) x = if x = a then v else readCells cells x := by
  induction cells with
  | nil => intro lo _; by_cases hv : v = Config.unlistedByte <;> simp [writeCells, readCells, hv]
  | cons c rest ih =>
    obtain ⟨k, b⟩ := c
    intro lo h
    have hrest : cellsWf size (some k) rest = true := by simp only [cellsWf, Bool.and_eq_true] at h; exact h.2
    have below : ∀ (l : List Host.Cell) (j : Nat), cellsWf size (some j) l = true → ∀ y, y ≤ j →
        readCells l y = Config.unlistedByte := by
      intro l
      induction l with
      | nil => intro j _ y _; rfl
      | cons c l ihl =>
        obtain ⟨k', b'⟩ := c
        intro j hj y hy
        simp only [cellsWf, Bool.and_eq_true, decide_eq_true_eq] at hj
        have hne : y ≠ k' := by omega
        simpa [readCells, hne] using ihl k' hj.2 y (by omega)
    simp only [writeCells]
    split
    · rename_i hlt
      split
      · rename_i hv
        by_cases hx : x = a
        · subst hx
          have hne : x ≠ k := by omega
          simp [readCells, hne, hv, below rest k hrest x (by omega)]
        · simp [hx]
      · simp [readCells]
    · split
      · rename_i hak
        subst hak
        split
        · rename_i hv
          by_cases hx : x = a
          · subst hx; simp [hv, below rest x hrest x (by omega)]
          · simp [readCells, hx]
        · by_cases hx : x = a <;> simp [readCells, hx]
      · rename_i hne
        by_cases hx : x = k
        · have : k ≠ a := by omega
          simp [readCells, hx, this]
        · simp [readCells, hx, ih (some k) hrest]

/-- Writing a byte below `size` and above `lo` keeps the cells rising, bounded and without default entries. -/
theorem cellsWf_writeCells (size : Nat) (cells : List Host.Cell) (a : Nat) (v : Byte) (ha : a < size) :
    ∀ lo, (∀ l, lo = some l → l < a) → cellsWf size lo cells = true → cellsWf size lo (writeCells cells a v) = true := by
  induction cells with
  | nil =>
    intro lo hlo _
    by_cases hv : v = Config.unlistedByte
    · simp [writeCells, hv, cellsWf]
    · cases lo with
      | none => simp [writeCells, hv, cellsWf, ha]
      | some l => simp [writeCells, hv, cellsWf, ha, hlo l rfl]
  | cons c rest ih =>
    obtain ⟨k, b⟩ := c
    intro lo hlo h
    have weaken : ∀ (l : List Host.Cell) (j : Nat) (lo' : Option Nat), (∀ q, lo' = some q → q < j) →
        cellsWf size (some j) l = true → cellsWf size lo' l = true := by
      intro l j lo' hq hl
      cases l with
      | nil => rfl
      | cons c l =>
        obtain ⟨k', b'⟩ := c
        simp only [cellsWf, Bool.and_eq_true, decide_eq_true_eq] at hl ⊢
        refine ⟨⟨⟨?_, hl.1.1.2⟩, hl.1.2⟩, hl.2⟩
        cases lo' with
        | none => rfl
        | some q => have := hq q rfl; simp; omega
    have hall := h
    simp only [cellsWf, Bool.and_eq_true] at h
    obtain ⟨⟨⟨hlow, hk⟩, hb⟩, hrest⟩ := h
    simp only [writeCells]
    split
    · rename_i hlt
      split
      · exact hall
      · rename_i hv
        cases lo with
        | none => simp [cellsWf, ha, hv, hlt, hrest] at *; exact ⟨hk, hb⟩
        | some l => simp [cellsWf, ha, hv, hlt, hrest, hlo l rfl] at *; exact ⟨hk, hb⟩
    · split
      · rename_i hak
        subst hak
        split
        · refine weaken rest a lo ?_ hrest
          exact fun q hq => hlo q hq
        · rename_i hv
          simp only [cellsWf, Bool.and_eq_true]
          exact ⟨⟨⟨hlow, hk⟩, by simpa using hv⟩, hrest⟩
      · rename_i hnlt hne
        simp only [cellsWf, Bool.and_eq_true]
        refine ⟨⟨⟨hlow, hk⟩, hb⟩, ih (some k) ?_ hrest⟩
        intro l hl
        cases hl
        omega

@[simp] theorem writeByte_size (m : Memory) (a : Nat) (v : Byte) : (m.writeByte a v).size = m.size := by
  unfold Memory.writeByte
  split <;> rfl

/-- Everything a loader's byte write does to reads: inside the memory the written address reads as the new byte, every other
address as before. -/
theorem byteAt_writeByte (m : Memory) (a : Nat) (v : Byte) (x : Nat) (h : m.wf = true) (ha : a < m.size) :
    (m.writeByte a v).byteAt x = if x = a then v else m.byteAt x := by
  simp only [Memory.wf, Bool.and_eq_true] at h
  simpa [Memory.writeByte, Memory.byteAt, ha] using readCells_writeCells m.size m.cells a v x none h.2

/-- A loader's byte write keeps the canonical form. -/
theorem wf_writeByte (m : Memory) (a : Nat) (v : Byte) (h : m.wf = true) : (m.writeByte a v).wf = true := by
  unfold Memory.writeByte
  split
  · rename_i ha
    simp only [Memory.wf, Bool.and_eq_true] at h ⊢
    exact ⟨h.1, cellsWf_writeCells m.size m.cells a v ha none (by simp) h.2⟩
  · exact h

@[simp] theorem writeBytes_size (m : Memory) (a : Nat) (l : List Byte) : (m.writeBytes a l).size = m.size := by
  induction l generalizing m a with
  | nil => rfl
  | cons v l ih => simp [Memory.writeBytes, ih]

/-- A loader's write of bytes keeps the canonical form. -/
theorem wf_writeBytes (m : Memory) (a : Nat) (l : List Byte) (h : m.wf = true) : (m.writeBytes a l).wf = true := by
  induction l generalizing m a with
  | nil => exact h
  | cons v l ih => exact ih _ _ (wf_writeByte m a v h)

/-- A loader's write of a word keeps the canonical form. -/
theorem wf_writeWord (m : Memory) (a : Nat) (w : Word) (h : m.wf = true) : (m.writeWord a w).wf = true :=
  wf_writeBytes m a _ h

/-- The memory of the reset state is in canonical form. -/
theorem reset_mem_wf : State.reset.mem.wf = true := by decide

/-- The alignment test of `readWord`, as a remainder. -/
theorem lowBits_eq_zero_iff (a : Word) : a.extractLsb' 0 2 = 0#2 ↔ a.toNat % 4 = 0 := by
  rw [← BitVec.toNat_inj]
  simp

/-- Everything `read_word` does (R50, R52, R53). -/
theorem readWord_eq (m : Memory) (a : Word) :
    m.readWord a = if a.toNat % 4 = 0 ∧ a.toNat + 4 ≤ m.size then
      some (wordOfBytes (m.byteAt a.toNat) (m.byteAt (a.toNat + 1)) (m.byteAt (a.toNat + 2)) (m.byteAt (a.toNat + 3)))
    else none := by
  simp only [Memory.readWord, lowBits_eq_zero_iff]

/-- The bytes of a word, put together again. -/
theorem wordOfBytes_bytes (w : Word) :
    wordOfBytes (w.extractLsb' 0 8) (w.extractLsb' 8 8) (w.extractLsb' 16 8) (w.extractLsb' 24 8) = w := by
  apply BitVec.eq_of_getLsbD_eq
  intro i hi
  simp only [wordOfBytes, BitVec.getLsbD_append, BitVec.getLsbD_extractLsb']
  by_cases h1 : i < 8
  · simp [h1]
  · by_cases h2 : i - 8 < 8
    · have : 8 + (i - 8) = i := by omega
      simp [h1, h2, this]
    · by_cases h3 : i - 8 - 8 < 8
      · have : 16 + (i - 8 - 8) = i := by omega
        simp [h1, h2, h3, this]
      · have h4 : i - 8 - 8 - 8 < 8 := by omega
        have : 24 + (i - 8 - 8 - 8) = i := by omega
        simp [h1, h2, h3, h4, this]

end Sys2Proof.Machine
end

