-- ==== Sys2Proof/Laws/Operands.lean ====
section
/-!
SUPPORT. The shift primitives, which are written as the spec writes them, are the library's shifts of the same name; and
the amounts at which they do nothing.
-/
namespace Sys2Proof.Machine

theorem lsl32_eq (v : Word) (n : Nat) : lsl32 v n = v <<< n := by
  apply BitVec.eq_of_toNat_eq
  simp [lsl32, BitVec.toNat_shiftLeft, Nat.shiftLeft_eq]

theorem lsr32_eq (v : Word) (n : Nat) : lsr32 v n = v >>> n := by
  apply BitVec.eq_of_toNat_eq
  have h : v.toNat / 2 ^ n < 2 ^ 32 := Nat.lt_of_le_of_lt (Nat.div_le_self _ _) v.isLt
  rw [lsr32, BitVec.toNat_ofNat, Nat.mod_eq_of_lt h, BitVec.toNat_ushiftRight, Nat.shiftRight_eq_div_pow]

theorem asr32_eq (v : Word) (n : Nat) : asr32 v n = v.sshiftRight n := by
  rw [asr32, BitVec.sshiftRight, Int.shiftRight_eq_div_pow]
  simp

theorem ror32_eq (v : Word) (n : Nat) : ror32 v n = v.rotateRight n := by
  unfold ror32
  split
  · rename_i h
    rw [BitVec.rotateRight, h]
    simp [BitVec.rotateRightAux]
  · rfl

@[simp] theorem shift_zero (v : Word) (st : ShiftType) : shift v st 0 = v := by simp [shift]

theorem registerAmount_eq (v : Word) : registerAmount v = v.toNat % 256 := by
  simp [registerAmount]

@[simp] theorem operand2_setFlags (op2 : Operand2) (s : State) (f : StatusReg) :
    operand2 op2 (s.setFlags f) = operand2 op2 s := by cases op2 <;> rfl

end Sys2Proof.Machine
end

