-- ==== Sys2Proof/Laws/State.lean ====
section
/-!
SUPPORT. One lemma per field per update of the state, so that no proof unfolds a record update.
-/
namespace Sys2Proof.Machine

@[simp] theorem reg_setReg_self (s : State) (i : Reg) (v : Word) : (s.setReg i v).reg i = v := by
  simp [State.setReg, State.reg]

theorem reg_setReg (s : State) (i k : Reg) (v : Word) : (s.setReg i v).reg k = if k = i then v else s.reg k := by
  simp [State.setReg, State.reg, Vector.getElem_set, Fin.ext_iff, eq_comm]

@[simp] theorem reg_setReg_of_ne (s : State) {i k : Reg} (v : Word) (h : k ≠ i) : (s.setReg i v).reg k = s.reg k := by
  simp [reg_setReg, h]

@[simp] theorem setReg_flags (s : State) (i : Reg) (v : Word) : (s.setReg i v).flags = s.flags := rfl
@[simp] theorem setReg_run (s : State) (i : Reg) (v : Word) : (s.setReg i v).run = s.run := rfl
@[simp] theorem setReg_mem (s : State) (i : Reg) (v : Word) : (s.setReg i v).mem = s.mem := rfl

@[simp] theorem pc_setReg_pc (s : State) (v : Word) : (s.setReg Config.pc v).pc = v := reg_setReg_self s Config.pc v

theorem pc_setReg_of_ne (s : State) {i : Reg} (v : Word) (h : Config.pc ≠ i) : (s.setReg i v).pc = s.pc :=
  reg_setReg_of_ne s v h

@[simp] theorem setReg_setReg (s : State) (i : Reg) (v w : Word) : (s.setReg i v).setReg i w = s.setReg i w := by
  simp [State.setReg]

@[simp] theorem setReg_reg_self (s : State) (i : Reg) : s.setReg i (s.reg i) = s := by
  simp [State.setReg, State.reg]

@[simp] theorem setReg_pc_self (s : State) : s.setReg Config.pc s.pc = s := setReg_reg_self s Config.pc

@[simp] theorem setFlags_reg (s : State) (f : StatusReg) (k : Reg) : (s.setFlags f).reg k = s.reg k := rfl
@[simp] theorem setFlags_pc (s : State) (f : StatusReg) : (s.setFlags f).pc = s.pc := rfl
@[simp] theorem setFlags_flags (s : State) (f : StatusReg) : (s.setFlags f).flags = f := rfl
@[simp] theorem setFlags_run (s : State) (f : StatusReg) : (s.setFlags f).run = s.run := rfl
@[simp] theorem setFlags_mem (s : State) (f : StatusReg) : (s.setFlags f).mem = s.mem := rfl
@[simp] theorem setMem_reg (s : State) (m : Memory) (k : Reg) : (s.setMem m).reg k = s.reg k := rfl
@[simp] theorem setMem_pc (s : State) (m : Memory) : (s.setMem m).pc = s.pc := rfl
@[simp] theorem setMem_flags (s : State) (m : Memory) : (s.setMem m).flags = s.flags := rfl
@[simp] theorem setMem_run (s : State) (m : Memory) : (s.setMem m).run = s.run := rfl
@[simp] theorem setMem_mem (s : State) (m : Memory) : (s.setMem m).mem = m := rfl

@[simp] theorem raiseFatal_reg (s : State) (c : Cause) (k : Reg) : (raiseFatal s c).reg k = s.reg k := rfl
@[simp] theorem raiseFatal_pc (s : State) (c : Cause) : (raiseFatal s c).pc = s.pc := rfl
@[simp] theorem raiseFatal_flags (s : State) (c : Cause) : (raiseFatal s c).flags = s.flags := rfl
@[simp] theorem raiseFatal_run (s : State) (c : Cause) : (raiseFatal s c).run = .faulted c := rfl
@[simp] theorem raiseFatal_mem (s : State) (c : Cause) : (raiseFatal s c).mem = s.mem := rfl

@[simp] theorem reset_reg (k : Reg) : State.reset.reg k = 0#32 := by simp [State.reset, State.reg]
@[simp] theorem reset_pc : State.reset.pc = 0#32 := reset_reg Config.pc
@[simp] theorem reset_run : State.reset.run = .running := rfl

@[simp] theorem resetInput_reg (s : State) (k : Reg) : (resetInput s).reg k = State.reset.reg k := rfl
@[simp] theorem resetInput_flags (s : State) : (resetInput s).flags = State.reset.flags := rfl
@[simp] theorem resetInput_run (s : State) : (resetInput s).run = .running := rfl
@[simp] theorem resetInput_mem (s : State) : (resetInput s).mem = s.mem := rfl

/-- Two states with the same registers and the same other fields are equal. -/
theorem state_ext {s t : State} (hx : ∀ k, s.reg k = t.reg k) (hf : s.flags = t.flags) (hr : s.run = t.run)
    (hm : s.mem = t.mem) : s = t := by
  obtain ⟨x, f, r, m⟩ := s
  obtain ⟨y, g, q, n⟩ := t
  obtain rfl : x = y := Vector.ext fun k hk => hx ⟨k, hk⟩
  simp_all

end Sys2Proof.Machine
end

