-- ==== Sys2Proof/Laws/Ops.lean ====
section
/-!
SUPPORT. What the shared operations do, said once: the completion of an effect, the data-processing executor, the dispatch,
the fetch, and the cases of a step.
-/
namespace Sys2Proof.Machine

/-! ### Completing an effect -/

@[simp] theorem commit_raise (s : State) (c : Cause) : commit s (.raise s c) = raiseFatal s c := rfl

@[simp] theorem commit_skip (s : State) : commit s (.skip s) = s.setReg Config.pc (s.pc + 4#32) := rfl

@[simp] theorem commit_taken (s s' : State) (target : Word) : commit s (taken s' target) = s'.setReg Config.pc target := rfl

/-- What completing an effect can do: set the latch of the start state, or write the PC of the executor's state. -/
theorem commit_cases (s : State) (e : Effect) :
    (∃ c, e.result.errorCode = .fatal c ∧ commit s e = raiseFatal s c) ∨
      ((∀ c, e.result.errorCode ≠ .fatal c) ∧ commit s e = e.state.setReg Config.pc e.result.nextPc) := by
  unfold commit
  cases h : e.result.errorCode with
  | none => exact .inr ⟨nofun, rfl⟩
  | pcUsedAsOperand => exact .inr ⟨nofun, rfl⟩
  | fatal c => exact .inl ⟨c, rfl, rfl⟩

/-! ### The data-processing executor -/

/-- The index validation of R162 cannot fail. -/
@[simp] theorem indicesValid_eq_true (d : DPFields) : indicesValid d = true := by
  have h : ∀ i : Reg, validIndex i = true := fun i => by simp [validIndex]
  cases hop : d.op2 <;> simp [indicesValid, operandRm?, operandRs?, hop, h]

@[simp] theorem writeBack_mem (d : DPFields) (o : AluOut) (s : State) : (writeBack d o s).mem = s.mem := by
  simp only [writeBack]; split <;> split <;> rfl

@[simp] theorem writeBack_run (d : DPFields) (o : AluOut) (s : State) : (writeBack d o s).run = s.run := by
  simp only [writeBack]; split <;> split <;> rfl

theorem writeBack_flags (d : DPFields) (o : AluOut) (s : State) :
    (writeBack d o s).flags = if o.writesFlags then o.flags else s.flags := by
  simp only [writeBack]; split <;> split <;> rfl

theorem writeBack_reg (d : DPFields) (o : AluOut) (s : State) (k : Reg) :
    (writeBack d o s).reg k = if o.writesRd = true ∧ k = d.rd then o.result else s.reg k := by
  simp only [writeBack]
  split <;> split <;> simp_all [reg_setReg]

/-- The executor when the condition passes: the writes, the PC advanced, and the warning in the result (R160). -/
theorem executeDP_passed {d : DPFields} {s : State} (o : AluOut) (h : condPassed d.cond s.flags = true) :
    executeDP d s o = { state := writeBack d o s
                        result := { nextPc := s.pc + 4#32, shouldHalt := false,
                                    errorCode := if pcOperandWarning d then .pcUsedAsOperand else .none } } := by
  simp [executeDP, h, nextInstruction, neverHalts]

/-- The executor when the condition fails (R161). -/
theorem executeDP_failed {d : DPFields} {s : State} (o : AluOut) (h : condPassed d.cond s.flags = false) :
    executeDP d s o = .skip s := by
  simp [executeDP, h]

/-- Completing the executor when the condition passes. -/
theorem commit_executeDP {d : DPFields} {s : State} (o : AluOut) (h : condPassed d.cond s.flags = true) :
    commit s (executeDP d s o) = (writeBack d o s).setReg Config.pc (s.pc + 4#32) := by
  rw [executeDP_passed o h, commit]
  by_cases hw : pcOperandWarning d = true <;> simp [hw]

/-! ### The dispatch -/

/-- Every meaning is the completion of its effect. -/
theorem exec_eq (i : Instr) (s : State) : exec i s = .next (commit s (effectOf i s)) := by
  cases i <;> rfl

/-- The data-processing executor leaves memory, latch and T to the PC unit. -/
theorem executeDP_frame (d : DPFields) (s : State) (o : AluOut) (ht : o.flags.t = s.flags.t) :
    (executeDP d s o).state.mem = s.mem ∧ (executeDP d s o).state.run = s.run ∧
      (executeDP d s o).state.flags.t = s.flags.t := by
  cases h : condPassed d.cond s.flags with
  | false => simp [executeDP_failed o h, Effect.skip]
  | true =>
    rw [executeDP_passed o h]
    refine ⟨by simp, by simp, ?_⟩
    simp only [writeBack_flags]
    split <;> simp [ht]

/-- No executor touches the memory, the latch or T (R55, R26, R224). -/
theorem effectOf_frame (i : Instr) (s : State) :
    (effectOf i s).state.mem = s.mem ∧ (effectOf i s).state.run = s.run ∧ (effectOf i s).state.flags.t = s.flags.t := by
  cases i with
  | b c o => simp only [effectOf, effectB]; split <;> exact ⟨rfl, rfl, rfl⟩
  | bl c o => simp only [effectOf, effectBl]; split <;> exact ⟨rfl, rfl, rfl⟩
  | bx c r => simp only [effectOf, effectBx]; split <;> [skip; split <;> [split; skip]] <;> exact ⟨rfl, rfl, rfl⟩
  | _ d => exact executeDP_frame d s _ rfl

/-- With a failed condition every executor skips, but BX with Rm = 15 (R121, R205). -/
theorem effectOf_failed {i : Instr} {s : State} (h : condPassed i.cond s.flags = false)
    (hbx : ∀ c, i ≠ .bx c Config.pc) : effectOf i s = .skip s := by
  cases i with
  | b c o => simp only [Instr.cond] at h; simp [effectOf, effectB, h]
  | bl c o => simp only [Instr.cond] at h; simp [effectOf, effectBl, h]
  | bx c r =>
    have hr : r ≠ Config.pc := fun e => hbx c (by rw [e])
    simp only [Instr.cond] at h
    simp only [effectOf, effectBx, if_neg hr, h]
    rfl
  | _ d => exact executeDP_failed _ h

/-- The data-processing executor raises no fatal error (R184). -/
theorem executeDP_not_fatal (d : DPFields) (s : State) (o : AluOut) (c : Cause) :
    (executeDP d s o).result.errorCode ≠ .fatal c := by
  cases h : condPassed d.cond s.flags with
  | false => rw [executeDP_failed o h]; nofun
  | true => rw [executeDP_passed o h]; dsimp only; split <;> nofun

/-- The only fatal errors an executor raises are BX's two (R184, R200, R205, R206). -/
theorem effectOf_fatal {i : Instr} {s : State} {c : Cause} (h : (effectOf i s).result.errorCode = .fatal c) :
    ∃ k rm, i = .bx k rm ∧ effectOf i s = .raise s c ∧
      ((rm = Config.pc ∧ c = .bxPcOperand) ∨
        (rm ≠ Config.pc ∧ condPassed k s.flags = true ∧ (s.reg rm).getLsbD 0 = true ∧ c = .unsupportedMode)) := by
  cases i with
  | b k o => simp only [effectOf, effectB] at h; split at h <;> cases h
  | bl k o => simp only [effectOf, effectBl] at h; split at h <;> cases h
  | bx k rm =>
    refine ⟨k, rm, rfl, ?_⟩
    simp only [effectOf, effectBx] at h ⊢
    split at h
    · rename_i hrm
      cases h
      exact ⟨if_pos hrm, .inl ⟨hrm, rfl⟩⟩
    · rename_i hrm
      split at h
      · rename_i hc
        split at h
        · rename_i hb
          cases h
          exact ⟨by rw [if_neg hrm, if_pos hc, if_pos hb], .inr ⟨hrm, hc, hb, rfl⟩⟩
        · cases h
      · cases h
  | _ d => exact absurd h (executeDP_not_fatal d s _ c)

/-! ### The fetch and the step -/

/-- Everything the fetch does (R52, R53). -/
theorem fetchWord_eq (s : State) :
    fetchWord s = if s.pc.toNat % 4 = 0 ∧ s.pc.toNat + 4 ≤ s.mem.size then
      some (wordOfBytes (s.mem.byteAt s.pc.toNat) (s.mem.byteAt (s.pc.toNat + 1)) (s.mem.byteAt (s.pc.toNat + 2))
        (s.mem.byteAt (s.pc.toNat + 3)))
    else none := readWord_eq s.mem s.pc

/-- What `fetchDecode` answers when it gives a decoded word: the fetched word and its instruction. -/
theorem fetchDecode_ok {s : State} {d : Decoded} (h : fetchDecode s = .ok d) :
    fetchWord s = some d.raw ∧ decodeWord d.raw = .ok d.instr := by
  unfold fetchDecode at h
  split at h
  · cases h
  · rename_i w hw
    split at h
    · cases h
    · rename_i j hj
      cases h
      rw [classify_raw hj]
      exact ⟨hw, decodeWord_of_classify hj⟩

/-- A fetched word that is an instruction is fetched and decoded to its decoded form. -/
theorem fetchDecode_of_decodeWord {s : State} {w : Word} {i : Instr} (hw : fetchWord s = some w)
    (hi : decodeWord w = .ok i) : fetchDecode s = .ok ⟨w, i⟩ := by
  simp only [fetchDecode, hw, classify_of_decodeWord hi]

/-- What `fetchDecode` answers when it raises. -/
theorem fetchDecode_error {s : State} {c : Cause} (h : fetchDecode s = .error c) :
    (fetchWord s = none ∧ c = .fetchFault) ∨
      (∃ w e, fetchWord s = some w ∧ decodeWord w = .error e ∧ c = .unknownOperation) := by
  unfold fetchDecode at h
  split at h
  · rename_i hw
    cases h
    exact .inl ⟨hw, rfl⟩
  · rename_i w hw
    split at h
    · rename_i e he
      cases h
      exact .inr ⟨w, e, hw, decodeWord_eq_error.mpr he, rfl⟩
    · cases h

/-- What a step can do, said once: from a running core, raise the cause of the fetch or of the classification, or complete
the effect of the decoded instruction (R238). -/
theorem step_next_cases {s t : State} (h : step s = .next t) :
    s.run = .running ∧
      ((∃ c, fetchDecode s = .error c ∧ t = raiseFatal s c) ∨
        (∃ d, fetchDecode s = .ok d ∧ t = commit s (effectOf d.instr s))) := by
  unfold step at h
  split at h
  · cases h
  · rename_i hr
    refine ⟨hr, ?_⟩
    split at h
    · rename_i c hc
      cases h
      exact .inl ⟨c, hc, rfl⟩
    · rename_i d hd
      rw [exec_eq] at h
      cases h
      exact .inr ⟨d, hd, rfl⟩

/-- A step of a running core always answers a next state. -/
theorem step_of_running {s : State} (h : s.run = .running) : ∃ t, step s = .next t := by
  unfold step
  rw [h]
  cases fetchDecode s with
  | error c => exact ⟨_, rfl⟩
  | ok d => exact ⟨_, exec_eq d.instr s⟩

@[simp] theorem run_zero (s : State) : Sys2Proof.core.run 0 s = .next s := rfl

/-- A run of `k + 1` steps from a state whose step answers. -/
theorem run_succ_next {s t : State} (k : Nat) (h : step s = .next t) :
    Sys2Proof.core.run (k + 1) s = Sys2Proof.core.run k t := by
  have e := Host.Core.run.eq_2 Sys2Proof.core s k
  rw [show Sys2Proof.core.step s = .next t from h] at e
  exact e

/-- A run of `k + 1` steps from a state whose step stops. -/
theorem run_succ_fault {s : State} {f : Fault} (k : Nat) (h : step s = .fault f) :
    Sys2Proof.core.run (k + 1) s = .fault f := by
  have e := Host.Core.run.eq_2 Sys2Proof.core s k
  rw [show Sys2Proof.core.step s = .fault f from h] at e
  exact e

/-- A faulted core takes no step (R225). -/
theorem step_of_faulted {s : State} {c : Cause} (h : s.run = .faulted c) : step s = .fault (.stopped c) := by
  unfold step
  rw [h]

end Sys2Proof.Machine
end

