-- ==== Sys2Proof/Laws/PerInstr.lean ====
section
/-!
SUPPORT. Laws of every instruction as syntax, one lemma per constructor. `EncodeCond`: the condition field of the word is the
instruction's condition, in all three formats (R71, R91).
-/
namespace Sys2Proof.Laws.EncodeCond

/-- Bits 31:28 of the encoded word are the code of the instruction's condition (R71). -/
def Statement (i : Instr) : Prop := (encode i).extractLsb' 28 4 = i.cond.code

theorem and (d : DPFields) : Statement (.and d) := encodeDP_cond _ d
theorem eor (d : DPFields) : Statement (.eor d) := encodeDP_cond _ d
theorem sub (d : DPFields) : Statement (.sub d) := encodeDP_cond _ d
theorem rsb (d : DPFields) : Statement (.rsb d) := encodeDP_cond _ d
theorem add (d : DPFields) : Statement (.add d) := encodeDP_cond _ d
theorem adc (d : DPFields) : Statement (.adc d) := encodeDP_cond _ d
theorem sbc (d : DPFields) : Statement (.sbc d) := encodeDP_cond _ d
theorem rsc (d : DPFields) : Statement (.rsc d) := encodeDP_cond _ d
theorem tst (d : DPFields) : Statement (.tst d) := encodeDP_cond _ d
theorem teq (d : DPFields) : Statement (.teq d) := encodeDP_cond _ d
theorem cmp (d : DPFields) : Statement (.cmp d) := encodeDP_cond _ d
theorem cmn (d : DPFields) : Statement (.cmn d) := encodeDP_cond _ d
theorem orr (d : DPFields) : Statement (.orr d) := encodeDP_cond _ d
theorem mov (d : DPFields) : Statement (.mov d) := encodeDP_cond _ d
theorem bic (d : DPFields) : Statement (.bic d) := encodeDP_cond _ d
theorem mvn (d : DPFields) : Statement (.mvn d) := encodeDP_cond _ d
theorem b (c : Cond) (offset : Word) : Statement (.b c offset) := encodeBranch_cond c _ offset
theorem bl (c : Cond) (offset : Word) : Statement (.bl c offset) := encodeBranch_cond c _ offset
theorem bx (c : Cond) (rm : Reg) : Statement (.bx c rm) := encodeBranchExchange_cond c rm

end Sys2Proof.Laws.EncodeCond
end

