-- ==== Sys2Proof/Tests/Slice0.lean ====
section
/-!
SUPPORT. Tests, each a named theorem: the WellFormed smoke, decoding and encoding of written-out words, single steps, what
the host evaluates, and a witness for the hypotheses of every obligation that has some.

Expected values are the spec's own: vectors V-*, S-* of spec/95_test_vectors.md, the examples of the rules named, or words
written field by field from the layouts of R73, R82, R86.
-/
namespace Sys2Proof.Machine.Tests

/-! ### Helpers -/

/-- Flags from the spec's NZCV bit string; T = 0. -/
def nzcv (b : BitVec 4) : StatusReg where
  n := b.getLsbD 3
  z := b.getLsbD 2
  c := b.getLsbD 1
  v := b.getLsbD 0
  t := false

/-- A running machine with 0x400 bytes of memory, the word `w` at `pc`, some registers and flags set (R254). -/
def machine (pc w : Word) (regs : List (Reg × Word)) (flags : BitVec 4) : State :=
  let s : State := { State.reset with flags := nzcv flags, mem := { size := 0x400, cells := [] } }
  let s := regs.foldl (fun s r => s.setReg r.1 r.2) s
  (s.setReg Config.pc pc).withFetchWord 32 w.toNat

/-- What one step leaves of a register, of the PC, of the flags and of the latch, with the code it reports. -/
def seen (s : State) (k : Reg) : Option (Word × Word × StatusReg × Run × Option ErrorCode) :=
  match step s with
  | .next t => some (t.reg k, t.pc, t.flags, t.run, (stepResult s).map ExecResult.errorCode)
  | .fault _ => none
  | .refused _ => none

/-- A step that completes with no report. -/
def ok (r pc : Word) (flags : BitVec 4) : Option (Word × Word × StatusReg × Run × Option ErrorCode) :=
  some (r, pc, nzcv flags, .running, some .none)

/-- A step that completes with the warning. -/
def warned (r pc : Word) (flags : BitVec 4) : Option (Word × Word × StatusReg × Run × Option ErrorCode) :=
  some (r, pc, nzcv flags, .running, some .pcUsedAsOperand)

/-- A step that raises. -/
def fatal (r pc : Word) (flags : BitVec 4) (c : Cause) : Option (Word × Word × StatusReg × Run × Option ErrorCode) :=
  some (r, pc, nzcv flags, .faulted c, some (.fatal c))

/-- Fields with condition AL and `Rn = 1`, `Rd = 0`, `Rm = 2` unshifted. -/
def plain (s : Bool) : DPFields := { cond := .al, s := s, rn := 1, rd := 0, op2 := .regImm 2 .lsl 0#5 }

/-! ### WellFormed smoke: each check refuses an ill-formed term -/

theorem test_wf_refuses_b_offset_not_multiple_of_four : (Instr.b .al 6#32).wf = false := by decide
theorem test_wf_refuses_bl_offset_not_multiple_of_four : (Instr.bl .al 1#32).wf = false := by decide
theorem test_wf_refuses_b_offset_too_far_forward : (Instr.b .al 0x02000000#32).wf = false := by decide
theorem test_wf_refuses_bl_offset_too_far_back : (Instr.bl .al 0xFDFFFFFC#32).wf = false := by decide
theorem test_wf_accepts_the_offset_range_ends :
    (Instr.b .al 0x01FFFFFC#32).wf = true ∧ (Instr.bl .al 0xFE000000#32).wf = true := by decide

/-! ### Decoding: words written out from the layouts, one for every constructor -/

/-- `cond 00 I opcode S Rn Rd operand2` (R73), bit by bit: AL, register form, `Rn = 1`, `Rd = 0`, `Rm = 2`. -/
theorem test_decode_and : decodeWord 0b1110_00_0_0000_1_0001_0000_00000_00_0_0010#32 = .ok (.and (plain true)) := by decide
theorem test_decode_eor : decodeWord 0b1110_00_0_0001_1_0001_0000_00000_00_0_0010#32 = .ok (.eor (plain true)) := by decide
theorem test_decode_sub : decodeWord 0b1110_00_0_0010_1_0001_0000_00000_00_0_0010#32 = .ok (.sub (plain true)) := by decide
theorem test_decode_rsb : decodeWord 0b1110_00_0_0011_1_0001_0000_00000_00_0_0010#32 = .ok (.rsb (plain true)) := by decide
theorem test_decode_add : decodeWord 0b1110_00_0_0100_1_0001_0000_00000_00_0_0010#32 = .ok (.add (plain true)) := by decide
theorem test_decode_adc : decodeWord 0b1110_00_0_0101_1_0001_0000_00000_00_0_0010#32 = .ok (.adc (plain true)) := by decide
theorem test_decode_sbc : decodeWord 0b1110_00_0_0110_1_0001_0000_00000_00_0_0010#32 = .ok (.sbc (plain true)) := by decide
theorem test_decode_rsc : decodeWord 0b1110_00_0_0111_1_0001_0000_00000_00_0_0010#32 = .ok (.rsc (plain true)) := by decide
theorem test_decode_tst : decodeWord 0b1110_00_0_1000_1_0001_0000_00000_00_0_0010#32 = .ok (.tst (plain true)) := by decide
theorem test_decode_teq : decodeWord 0b1110_00_0_1001_1_0001_0000_00000_00_0_0010#32 = .ok (.teq (plain true)) := by decide
theorem test_decode_cmp : decodeWord 0b1110_00_0_1010_1_0001_0000_00000_00_0_0010#32 = .ok (.cmp (plain true)) := by decide
theorem test_decode_cmn : decodeWord 0b1110_00_0_1011_1_0001_0000_00000_00_0_0010#32 = .ok (.cmn (plain true)) := by decide
theorem test_decode_orr : decodeWord 0b1110_00_0_1100_1_0001_0000_00000_00_0_0010#32 = .ok (.orr (plain true)) := by decide
theorem test_decode_mov : decodeWord 0b1110_00_0_1101_1_0001_0000_00000_00_0_0010#32 = .ok (.mov (plain true)) := by decide
theorem test_decode_bic : decodeWord 0b1110_00_0_1110_1_0001_0000_00000_00_0_0010#32 = .ok (.bic (plain true)) := by decide
theorem test_decode_mvn : decodeWord 0b1110_00_0_1111_1_0001_0000_00000_00_0_0010#32 = .ok (.mvn (plain true)) := by decide
/-- `cond 101 L imm24` (R82): V-DE-9 and V-DE-8. -/
theorem test_decode_b : decodeWord 0b1110_101_0_111111111111111111111110#32 = .ok (.b .al 0xFFFFFFF8#32) := by decide
theorem test_decode_bl : decodeWord 0b0001_101_1_000000000000000000000010#32 = .ok (.bl .ne 8#32) := by decide
/-- `cond 0001 0010 1111 1111 1111 0001 Rm` (R207): V-DE-13. -/
theorem test_decode_bx : decodeWord 0b0000_0001_0010_1111_1111_1111_0001_0011#32 = .ok (.bx .eq 3) := by decide

/-- The three operand forms, `cond 00 I opcode S Rn Rd operand2` with `rot imm8`, `shamt stype 0 Rm`, `Rs 0 stype 1 Rm`. -/
theorem test_decode_immediate_form : decodeWord 0b1110_00_1_1101_0_0000_0000_0100_11111111#32 =
    .ok (.mov { cond := .al, s := false, rn := 0, rd := 0, op2 := .imm 4 0xFF }) := by decide
theorem test_decode_shift_by_immediate : decodeWord 0b1110_00_0_1101_0_0000_0000_11111_11_0_0001#32 =
    .ok (.mov { cond := .al, s := false, rn := 0, rd := 0, op2 := .regImm 1 .ror 31 }) := by decide
theorem test_decode_shift_by_register : decodeWord 0b1110_00_0_1101_0_0000_0000_0010_0_10_1_0001#32 =
    .ok (.mov { cond := .al, s := false, rn := 0, rd := 0, op2 := .regReg 1 .asr 2 }) := by decide
/-- V-DE-7: bit 7 set in the register-amount form. -/
theorem test_decode_ignores_bit_seven : decodeWord 0xE0000291#32 =
    .ok (.and { cond := .al, s := false, rn := 0, rd := 0, op2 := .regReg 1 .lsl 2 }) := by decide
/-- V-DE-14: one bit away from BX is a TEQ. -/
theorem test_decode_one_bit_from_bx : decodeWord 0xE12FFF31#32 =
    .ok (.teq { cond := .al, s := false, rn := 15, rd := 15, op2 := .regReg 1 .lsr 15 }) := by decide

/-- R76, R84, R88: the decoded form of each class holds the raw word (V-DE-7, whose ignored bit 7 is set; V-DE-8; V-DE-13). -/
theorem test_decoded_raw_word :
    classify 0xE0000291#32 =
        .ok { raw := 0xE0000291#32, instr := .and { cond := .al, s := false, rn := 0, rd := 0, op2 := .regReg 1 .lsl 2 } } ∧
      classify 0x1B000002#32 = .ok { raw := 0x1B000002#32, instr := .bl .ne 8#32 } ∧
      classify 0x012FFF13#32 = .ok { raw := 0x012FFF13#32, instr := .bx .eq 3 } := by decide

/-- V-DE-19, V-FT-3, V-DE-16, V-DE-17, V-DE-18: words that are no instruction, each under its own name. -/
theorem test_decode_rejects_by_name :
    decodeWord 0xFA000002#32 = .error .undefinedCondition ∧ decodeWord 0xF12FFF10#32 = .error .undefinedCondition ∧
      decodeWord 0xE5910000#32 = .error .singleTransferSpace ∧ decodeWord 0xE8BD8000#32 = .error .blockTransferSpace ∧
      decodeWord 0xEF000000#32 = .error .coprocessorSpace := by decide

/-- Byte order (95_test_vectors.md section 3): `0xE3A00005` is the bytes 05 00 A0 E3; the rest of the bytes is returned. -/
theorem test_decode_bytes_little_endian : decode [0x05#8, 0x00#8, 0xA0#8, 0xE3#8, 0x77#8] =
    .ok (.mov { cond := .al, s := false, rn := 0, rd := 0, op2 := .imm 0 5 }, [0x77#8]) := by decide
theorem test_decode_truncated : decode [0x05#8, 0x00#8, 0xA0#8] = .error .truncated := by decide

/-! ### Encoding: the same written-out words -/

theorem test_encode_data_processing : encode (.add (plain true)) = 0xE0910002#32 := by decide
theorem test_encode_branch : encode (.bl .ne 8#32) = 0x1B000002#32 := by decide
theorem test_encode_branch_exchange : encode (.bx .al 14) = 0xE12FFF1E#32 := by decide
/-- R87's reading of BX's pattern as a TEQ: its only word has bit 7 set (log 9). -/
theorem test_encode_teq_beside_bx :
    encode (.teq { cond := .al, s := false, rn := 15, rd := 15, op2 := .regReg 3 .lsl 15 }) = 0xE12FFF93#32 := by decide

/-! ### What the host evaluates -/

theorem test_decodeTableWord : decodeTableWord 32 0xE12FFF1E = some (.bx .al 14) := by decide
theorem test_decodeTableWord_rejects : decodeTableWord 32 0xE5910000 = none := by decide
/-- `step` after `withFetchWord` on the reset state runs the word: `MOV R0, #5` (R182). -/
theorem test_step_withFetchWord_from_reset : seen (State.reset.withFetchWord 32 0xE3A00005) 0 = ok 5#32 4#32 0b0000#4 := by decide
/-- V-RS-2: reset with nothing placed runs the all-zero word, which is skipped. -/
theorem test_step_from_reset : seen State.reset 0 = ok 0#32 4#32 0b0000#4 := by decide

/-! ### Steps: data-processing -/

theorem test_and_vLG1 : seen (machine 0#32 0xE0110002#32 [(1, 0xF0F0F0F0#32), (2, 0x0FF00FF0#32)] 0b0000#4) 0 =
    ok 0x00F000F0#32 4#32 0b0000#4 := by decide
theorem test_and_vLG3_keeps_c_and_v : seen (machine 0#32 0xE2110000#32 [(0, 0x55#32), (1, 0xF0F0F0F0#32)] 0b0011#4) 0 =
    ok 0#32 4#32 0b0111#4 := by decide
theorem test_orr_vLG5 : seen (machine 0#32 0xE1910002#32 [(1, 0xF0F0F0F0#32), (2, 0x0FF00FF0#32)] 0b0000#4) 0 =
    ok 0xFFF0FFF0#32 4#32 0b1000#4 := by decide
theorem test_eor_vLG9 : seen (machine 0#32 0xE23104FF#32 [(1, 0x7F000000#32)] 0b0000#4) 0 =
    ok 0x80000000#32 4#32 0b1000#4 := by decide
theorem test_bic_vLG10 : seen (machine 0#32 0xE1D10002#32 [(1, 0xF0F0F0F0#32), (2, 0x0FF00FF0#32)] 0b0000#4) 0 =
    ok 0xF000F000#32 4#32 0b1000#4 := by decide
theorem test_add_vAR7_flags_from_old_values : seen (machine 0#32 0xE0911001#32 [(1, 0x80000000#32)] 0b0000#4) 1 =
    ok 0#32 4#32 0b0111#4 := by decide
theorem test_sub_scenario_b : seen (machine 0#32 0xE0510002#32 [(1, 5#32), (2, 10#32)] 0b0000#4) 0 =
    ok 0xFFFFFFFB#32 4#32 0b1000#4 := by decide
theorem test_rsb_vAR18 : seen (machine 0#32 0xE0710002#32 [(1, 3#32), (2, 10#32)] 0b0000#4) 0 = ok 7#32 4#32 0b0010#4 := by decide
theorem test_rsb_vAR17_negate_most_negative : seen (machine 0#32 0xE2710000#32 [(1, 0x80000000#32)] 0b0000#4) 0 =
    ok 0x80000000#32 4#32 0b1001#4 := by decide
theorem test_adc_vAR24_fold_wraps : seen (machine 0#32 0xE0B10002#32 [(1, 5#32), (2, 0xFFFFFFFF#32)] 0b0010#4) 0 =
    ok 5#32 4#32 0b0000#4 := by decide
theorem test_adc_vAR26_fold_changes_sign : seen (machine 0#32 0xE0B10002#32 [(2, 0x7FFFFFFF#32)] 0b0010#4) 0 =
    ok 0x80000000#32 4#32 0b1000#4 := by decide
theorem test_sbc_vAR32_fold_wraps : seen (machine 0#32 0xE0D10002#32 [(1, 5#32), (2, 0xFFFFFFFF#32)] 0b0000#4) 0 =
    ok 5#32 4#32 0b0010#4 := by decide
theorem test_sbc_vAR33_fold_changes_sign : seen (machine 0#32 0xE0D10002#32 [(2, 0x7FFFFFFF#32)] 0b0000#4) 0 =
    ok 0x80000000#32 4#32 0b1001#4 := by decide
theorem test_rsc_vAR35 : seen (machine 0#32 0xE0F10002#32 [(1, 3#32), (2, 10#32)] 0b0010#4) 0 = ok 7#32 4#32 0b0010#4 := by decide
/-- R177 corner (i): `a = 0xFFFFFFFF`, C = 0: `r = b`, C = 1. -/
theorem test_rsc_fold_wraps : seen (machine 0#32 0xE0F10002#32 [(1, 0xFFFFFFFF#32), (2, 5#32)] 0b0000#4) 0 =
    ok 5#32 4#32 0b0010#4 := by decide
theorem test_tst_vCM9_s_clear : seen (machine 0#32 0xE1010002#32 [(1, 0xF0#32), (2, 0x0F#32)] 0b0000#4) 0 =
    ok 0#32 4#32 0b0100#4 := by decide
theorem test_teq_vCM11 : seen (machine 0#32 0xE1310002#32 [(1, 0x80000000#32)] 0b0000#4) 0 = ok 0#32 4#32 0b1000#4 := by decide
theorem test_cmp_scenario_c : seen (machine 0#32 0xE1510002#32 [(1, 7#32), (2, 7#32)] 0b0000#4) 1 = ok 7#32 4#32 0b0110#4 := by decide
/-- R181's second example. -/
theorem test_cmn_overflow : seen (machine 0#32 0xE3710001#32 [(1, 0x7FFFFFFF#32)] 0b0000#4) 1 =
    ok 0x7FFFFFFF#32 4#32 0b1001#4 := by decide
theorem test_mov_vMV2_n_and_z_only : seen (machine 0#32 0xE1B00001#32 [(1, 0x80000000#32)] 0b0011#4) 0 =
    ok 0x80000000#32 4#32 0b1011#4 := by decide
theorem test_mvn_vMV6 : seen (machine 0#32 0xE1F00001#32 [(0, 0x55#32), (1, 0xFFFFFFFF#32)] 0b1010#4) 0 =
    ok 0#32 4#32 0b0110#4 := by decide

/-- The second operand: V-IM-7, V-SH-9, V-SH-10, V-SH-12, V-SH-18, V-SH-20, V-SH-21, V-SH-25. -/
theorem test_operand2_vectors :
    rotatedImmediate 2 0xFF = 0xF000000F#32 ∧ shift 0x80000001#32 .ror 31 = 3#32 ∧ shift 0x80000001#32 .lsr 0 = 0x80000001#32 ∧
      shift 0x80000001#32 .ror 0 = 0x80000001#32 ∧ shift 0x80000001#32 .lsl (registerAmount 0xFFFFFF01#32) = 2#32 ∧
      shift 0x80000001#32 .lsr 255 = 0#32 ∧ shift 0x80000001#32 .asr 32 = 0xFFFFFFFF#32 ∧
      shift 0x80000001#32 .ror 33 = 0xC0000000#32 := by decide

/-- Conditions and register 15: V-CE-3, V-PC-1, V-PC-5, V-PC-12. -/
theorem test_condition_on_old_flags_vCE3 :
    seen (machine 0#32 0x00910002#32 [(0, 0x55#32), (1, 0xFFFFFFFF#32), (2, 1#32)] 0b1100#4) 0 = ok 0#32 4#32 0b0110#4 := by decide
theorem test_pc_read_vPC1 : seen (machine 0x20#32 0xE1A0000F#32 [] 0b0000#4) 0 = warned 0x20#32 0x24#32 0b0000#4 := by decide
theorem test_pc_compare_vPC5 : seen (machine 0x20#32 0xE35F0020#32 [] 0b0000#4) 0 = warned 0#32 0x24#32 0b0110#4 := by decide
theorem test_write_pc_no_jump_vPC12 : seen (machine 0x20#32 0xE25EF004#32 [(14, 0x104#32)] 0b0000#4) 15 =
    ok 0x24#32 0x24#32 0b0010#4 := by decide

/-- The warning: V-PC-7 (the Rn field, whatever the operation), V-PC-8 (not Rs), V-PC-9 (not Rd). -/
theorem test_warning_fields :
    pcOperandWarning { cond := .al, s := false, rn := 15, rd := 0, op2 := .imm 0 1 } = true ∧
      pcOperandWarning { cond := .al, s := false, rn := 0, rd := 0, op2 := .regReg 1 .lsl 15 } = false ∧
      pcOperandWarning { cond := .al, s := false, rn := 0, rd := 15, op2 := .regImm 1 .lsl 0 } = false := by decide

/-! ### Steps: branches -/

theorem test_b_vBR6_wraps : seen (machine 4#32 0xEAFFFFFE#32 [] 0b0000#4) 14 = ok 0#32 0xFFFFFFFC#32 0b0000#4 := by decide
theorem test_b_scenario_d : seen (machine 0x100#32 0x0A000002#32 [] 0b0000#4) 14 = ok 0#32 0x104#32 0b0000#4 := by decide
theorem test_bl_scenario_e : seen (machine 0x100#32 0xEB000002#32 [] 0b0000#4) 14 = ok 0xFC#32 0x108#32 0b0000#4 := by decide
theorem test_bl_vBR12_not_taken : seen (machine 0x100#32 0x1B000002#32 [(14, 0x1234#32)] 0b0100#4) 14 =
    ok 0x1234#32 0x104#32 0b0100#4 := by decide
theorem test_bx_vBX2_rounds_down : seen (machine 0x10#32 0xE12FFF10#32 [(0, 0x202#32)] 0b0000#4) 0 =
    ok 0x202#32 0x200#32 0b0000#4 := by decide

/-! ### Steps: faults -/

/-- V-BX-7: Rm = 15 is checked before the condition. -/
theorem test_bx_vBX7_pc_before_condition :
    (effectOf (.bx .ne 15) (machine 0x10#32 0#32 [] 0b0100#4)).result.errorCode = .fatal .bxPcOperand := by decide

/-- V-AF-1, its first step. -/
theorem test_thumb_target_vAF1 : seen (machine 0x10#32 0xE12FFF10#32 [(0, 0x201#32)] 0b1010#4) 0 =
    fatal 0x201#32 0x10#32 0b1010#4 .unsupportedMode := by decide
theorem test_unknown_vFT9 : seen (machine 0#32 0x05910000#32 [] 0b0000#4) 0 = fatal 0#32 0#32 0b0000#4 .unknownOperation := by decide
theorem test_misaligned_fetch_vFF1 : seen (machine 2#32 0xE1A00000#32 [] 0b0000#4) 0 =
    fatal 0#32 2#32 0b0000#4 .fetchFault := by decide
/-- V-FF-3, with MEM_SIZE = 0x400: the first address outside faults. -/
theorem test_fetch_outside_vFF3 : seen (machine 0x400#32 0xE1A00000#32 [] 0b0000#4) 0 =
    fatal 0#32 0x400#32 0b0000#4 .fetchFault := by decide
/-- V-AF-1, its second step: no step is taken. -/
theorem test_faulted_core_stops : seen (raiseFatal State.reset .unsupportedMode) 0 = none := by decide

/-! ### The flag helpers and the memory -/

/-- R119. -/
theorem test_flag_helpers_r119 :
    addFlags 0x80000000#32 0x80000000#32 = { r := 0#32, c := true, v := true } ∧
      subFlags 0x7FFFFFFF#32 0xFFFFFFFF#32 = { r := 0x80000000#32, c := false, v := true } := by decide
/-- R25: N 31, Z 30, C 29, V 28, T 5. -/
theorem test_packed_positions :
    (nzcv 0b1010#4).packed = 0xA0000000#32 ∧ { nzcv 0b0000#4 with t := true : StatusReg }.packed = 0x20#32 := by decide
/-- Writing the value an unlisted byte reads as removes the entry, so that equal memories are equal data. -/
theorem test_memory_canonical :
    ((State.reset.mem.writeByte 5 7#8).writeByte 5 0#8) = State.reset.mem ∧
      ((State.reset.mem.writeByte 9 1#8).writeByte 5 2#8).cells = [(5, 2#8), (9, 1#8)] := by decide

/-! ### Witnesses

For every obligation with hypotheses, a concrete state and operands that meet all of them together; several where it has
several clauses, at the ends of a range where it has one. -/

/-- A faulted state, with registers and flags that are not zero. -/
def faultedState : State := { machine 0x10#32 0xE12FFF10#32 [(0, 0x201#32)] 0b1010#4 with run := .faulted .unsupportedMode }

/-- An aligned running state whose next word is `ADDS R0, R1, R2`. -/
def addState : State := machine 0x20#32 0xE0910002#32 [(1, 0x80000000#32), (2, 0x80000000#32)] 0b0010#4

theorem inv_addState : addState.Inv := ⟨by decide, by decide, by decide⟩

theorem witness_ResetInput : faultedState.Inv ∧ faultedState.run = .faulted .unsupportedMode :=
  ⟨⟨by decide, by decide, by decide⟩, rfl⟩

theorem witness_FaultedCore : faultedState.run = .faulted .unsupportedMode ∧
    step faultedState = .fault (.stopped .unsupportedMode) := ⟨rfl, rfl⟩

theorem witness_FatalStep : ∃ t, step (machine 0#32 0xE5910000#32 [(3, 9#32)] 0b1010#4) = .next t ∧
    t.run = .faulted .unknownOperation := ⟨_, rfl, by decide⟩

/-- The last word of the memory, byte 3. -/
theorem witness_FetchedWord : Fetchable (machine 0x3FC#32 0xE0910002#32 [] 0b0000#4) ∧ 3 < 4 := ⟨⟨by decide, by decide⟩, by decide⟩

/-- Both clauses at their ends: the last aligned address inside, the first one outside, the three misalignments. -/
theorem witness_FetchFault :
    (machine 0x3FC#32 0#32 [] 0b0000#4).run = .running ∧ (fetchWord (machine 0x3FC#32 0#32 [] 0b0000#4)).isSome = true ∧
      fetchWord (machine 0x400#32 0#32 [] 0b0000#4) = none ∧ fetchWord (machine 0x3FD#32 0#32 [] 0b0000#4) = none ∧
      fetchWord (machine 2#32 0#32 [] 0b0000#4) = none ∧ fetchWord (machine 3#32 0#32 [] 0b0000#4) = none := by decide

theorem witness_StepExecutes : addState.run = .running ∧ Fetchable addState ∧
    decode [addState.mem.byteAt 0x20, addState.mem.byteAt 0x21, addState.mem.byteAt 0x22, addState.mem.byteAt 0x23] =
      .ok (.add (plain true), []) := ⟨by decide, ⟨by decide, by decide⟩, by decide⟩

/-- A word of each kind: an instruction, condition 0b1111, and the three spaces at their end words. -/
theorem witness_UnknownOperation :
    addState.run = .running ∧ fetchWord addState = some 0xE0910002#32 ∧
      fetchWord (machine 0#32 0xF0000000#32 [] 0b0000#4) = some 0xF0000000#32 ∧
      fetchWord (machine 0#32 0x04000000#32 [] 0b0000#4) = some 0x04000000#32 ∧
      fetchWord (machine 0#32 0xE9FFFFFF#32 [] 0b0000#4) = some 0xE9FFFFFF#32 ∧
      fetchWord (machine 0#32 0xEFFFFFFF#32 [] 0b0000#4) = some 0xEFFFFFFF#32 := by decide

/-- Two memories that differ (at address 0x80) and give the same word; and a faulted state for the second clause. -/
theorem witness_StepDependsOnMemory :
    fetchWord (addState.setMem (addState.mem.writeByte 0x80 1#8)) = fetchWord addState ∧
      addState.mem.writeByte 0x80 1#8 ≠ addState.mem ∧ (∃ t, step addState = .next t) ∧
      (∃ f, step faultedState = .fault f) := ⟨by decide, by decide, ⟨_, rfl⟩, ⟨_, rfl⟩⟩

/-- The last word of the memory; an address below it and one above its first three bytes. -/
theorem witness_PlacedWord : (machine 0x3FC#32 0#32 [] 0b0000#4).Inv ∧
    (machine 0x3FC#32 0#32 [] 0b0000#4).pc.toNat + 4 ≤ (machine 0x3FC#32 0#32 [] 0b0000#4).mem.size ∧
    0x3FB < (machine 0x3FC#32 0#32 [] 0b0000#4).pc.toNat := ⟨⟨by decide, by decide, by decide⟩, by decide, by decide⟩

/-- Each operand form. -/
theorem witness_DataProcessingFields :
    decodeWord 0xE0910002#32 = .ok (.add (plain true)) ∧ dpFields? (.add (plain true)) = some (plain true) ∧
      (0xE0910002#32 : Word).getLsbD 25 = false ∧ (0xE0910002#32 : Word).getLsbD 4 = false ∧
      (∃ i, decodeWord 0xE1A00251#32 = .ok i ∧ (dpFields? i).isSome = true) ∧ (0xE1A00251#32 : Word).getLsbD 4 = true ∧
      (∃ i, decodeWord 0xE3A004FF#32 = .ok i ∧ (dpFields? i).isSome = true) ∧ (0xE3A004FF#32 : Word).getLsbD 25 = true :=
  ⟨by decide, by decide, by decide, by decide, ⟨_, rfl, by decide⟩, by decide, ⟨_, rfl, by decide⟩, by decide⟩

theorem witness_BxPattern : Cond.eq.code = (0x012FFF13#32 : Word).extractLsb' 28 4 ∧
    (0x012FFF13#32 : Word).extractLsb' 4 24 = 0x12FFF1#24 := by decide

theorem witness_BitSeven : (0xE0000291#32 : Word).extractLsb' 25 3 = 0b000#3 ∧ (0xE0000291#32 : Word).getLsbD 4 = true ∧
    (0xE0000291#32 : Word).extractLsb' 4 24 ≠ 0x12FFF1#24 ∧
    (0xE0000291#32 ^^^ 0x80#32 : Word).extractLsb' 4 24 ≠ 0x12FFF1#24 := by decide

theorem witness_DecodeOfEncode : (Instr.bl .le 0xFE000000#32).wf = true ∧ (Instr.add (plain true)).wf = true := by decide

/-- Both cases of the conclusion: a canonical word and one with the ignored bit set. -/
theorem witness_EncodeOfDecode : (∃ i, decodeWord 0xE0910002#32 = .ok i ∧ encode i = 0xE0910002#32) ∧
    (∃ i, decodeWord 0xE0000291#32 = .ok i ∧ encode i = 0xE0000211#32) := ⟨⟨_, rfl, by decide⟩, ⟨_, rfl, by decide⟩⟩

theorem witness_DecodedWellFormed : ∃ i, decodeWord 0xEA800000#32 = .ok i ∧ i.wf = true := ⟨_, rfl, by decide⟩

/-- One instruction of each class, condition NE with Z = 1. -/
theorem witness_FailedCondition :
    condPassed .ne (nzcv 0b0100#4) = false ∧ (Instr.mov { plain true with cond := .ne }).cond = .ne ∧
      (Instr.b .ne 8#32).cond = .ne ∧ Instr.bx .ne 3 ≠ .bx .ne Config.pc := by decide

/-- Each of the three premises, with operands at the signed and unsigned boundary. -/
theorem witness_ConditionsAfterCompare :
    condPassed (plain true).cond addState.flags = true ∧ (plain true).s = true ∧ addState.reg (plain true).rn = 0x80000000#32 ∧
      operand2 (plain true).op2 addState = 0x80000000#32 ∧ (∃ t, exec (.cmp (plain true)) addState = .next t) ∧
      (∃ t, exec (.sub (plain true)) addState = .next t) ∧ (∃ t, exec (.rsb (plain true)) addState = .next t) :=
  ⟨by decide, by decide, by decide, by decide, ⟨_, rfl⟩, ⟨_, rfl⟩, ⟨_, rfl⟩⟩

/-- Bit 31 of an immediate, and of each register form, with the amount at 0, 31 and 255. -/
theorem witness_SecondOperand :
    31 < 32 ∧ Operand2.regImm 1 .ror 31#5 = .regImm 1 .ror 31#5 ∧ 31 = (31#5).toNat ∧ 0 = (0#5).toNat ∧
      255 = ((machine 0#32 0#32 [(2, 0xFFFFFFFF#32)] 0b0000#4).reg 2).toNat % 256 := by decide

theorem witness_RegisterFifteen : ({ plain true with rn := 15 } : DPFields).rn = Config.pc ∧
    condPassed .al addState.flags = true := by decide

/-- For every statement about a data-processing instruction's result (AND to MVN): a passing condition, with Rd = 0 and with
Rd = 15. The words are of every opcode, so that the encoding clauses meet their premises. -/
theorem witness_DataProcessing :
    condPassed (plain true).cond addState.flags = true ∧ (plain true).rd ≠ Config.pc ∧
      ({ plain true with rd := 15 } : DPFields).rd = Config.pc ∧
      (∀ op : BitVec 4, let w : Word := 0xE0110002#32 ||| (op.setWidth 32 <<< 21)
        Cond.al.code = w.extractLsb' 28 4 ∧ w.extractLsb' 26 2 = 0b00#2 ∧ w.extractLsb' 21 4 = op ∧
          w.extractLsb' 4 24 ≠ 0x12FFF1#24) := by decide

/-- The corner values of ADC: `b = 0xFFFFFFFF` and `b = 0x7FFFFFFF` with C = 1, and an ordinary one. -/
theorem witness_Adc :
    (∃ t, exec (.adc (plain true)) (machine 0#32 0#32 [(1, 5#32), (2, 0xFFFFFFFF#32)] 0b0010#4) = .next t) ∧
      (∃ t, exec (.adc (plain true)) (machine 0#32 0#32 [(2, 0x7FFFFFFF#32)] 0b0010#4) = .next t) ∧
      (∃ t, exec (.adc (plain true)) addState = .next t) := ⟨⟨_, rfl⟩, ⟨_, rfl⟩, ⟨_, rfl⟩⟩

/-- The same for SBC and RSC, with C = 0. -/
theorem witness_SbcRsc :
    (∃ t, exec (.sbc (plain true)) (machine 0#32 0#32 [(1, 5#32), (2, 0xFFFFFFFF#32)] 0b0000#4) = .next t) ∧
      (∃ t, exec (.sbc (plain true)) (machine 0#32 0#32 [(2, 0x7FFFFFFF#32)] 0b0000#4) = .next t) ∧
      (∃ t, exec (.rsc (plain true)) (machine 0#32 0#32 [(1, 0xFFFFFFFF#32), (2, 5#32)] 0b0000#4) = .next t) ∧
      (∃ t, exec (.rsc (plain true)) (machine 0#32 0#32 [(1, 0x7FFFFFFF#32)] 0b0000#4) = .next t) :=
  ⟨⟨_, rfl⟩, ⟨_, rfl⟩, ⟨_, rfl⟩, ⟨_, rfl⟩⟩

theorem witness_WritingRegisterFifteen :
    resultFields? (Instr.ofOpcode 0b1101#4 { plain true with rd := 15 }) = some { plain true with rd := 15 } ∧
      ({ plain true with rd := 15 } : DPFields).rd = Config.pc ∧ condPassed .al addState.flags = true ∧
      (∃ t, exec (Instr.ofOpcode 0b1101#4 { plain true with rd := 3 }) addState = .next t) :=
  ⟨by decide, by decide, by decide, ⟨_, rfl⟩⟩

/-- Low words in R0 and R2, high words in R1 and R3, result in R4 and R5. -/
theorem witness_SixtyFourBit : (4 : Reg) ≠ Config.pc ∧ (5 : Reg) ≠ Config.pc ∧ (5 : Reg) ≠ 4 ∧ (1 : Reg) ≠ 4 ∧
    (3 : Reg) ≠ 4 ∧ (1 : Reg) ≠ Config.pc ∧ (3 : Reg) ≠ Config.pc ∧
    (∃ t u, exec (.add { cond := .al, s := true, rn := 0, rd := 4, op2 := .regImm 2 .lsl 0#5 }) addState = .next t ∧
      exec (.adc { cond := .al, s := false, rn := 1, rd := 5, op2 := .regImm 3 .lsl 0#5 }) t = .next u) ∧
    (∃ t u, exec (.sub { cond := .al, s := true, rn := 0, rd := 4, op2 := .regImm 2 .lsl 0#5 }) addState = .next t ∧
      exec (.sbc { cond := .al, s := false, rn := 1, rd := 5, op2 := .regImm 3 .lsl 0#5 }) t = .next u) :=
  ⟨by decide, by decide, by decide, by decide, by decide, by decide, by decide, ⟨_, _, rfl, rfl⟩, ⟨_, _, rfl, rfl⟩⟩

/-- The encoding clauses of B and BL, and both values of the condition. -/
theorem witness_Branch :
    Cond.al.code = (0xEA800000#32 : Word).extractLsb' 28 4 ∧ (0xEA800000#32 : Word).extractLsb' 25 3 = 0b101#3 ∧
      (0xEA800000#32 : Word).getLsbD 24 = false ∧ (0xEB7FFFFF#32 : Word).getLsbD 24 = true ∧
      condPassed .eq (nzcv 0b0000#4) = false ∧ condPassed .eq (nzcv 0b0100#4) = true := by decide

/-- The four forms of BX: Rm = 15, a failed condition, a Thumb target (low bits 01 and 11), a target (low bits 10). -/
theorem witness_BranchAndExchange :
    (15 : Reg) = Config.pc ∧ (0 : Reg) ≠ Config.pc ∧ condPassed .eq (nzcv 0b0000#4) = false ∧
      condPassed .eq (nzcv 0b0100#4) = true ∧
      ((machine 0#32 0#32 [(0, 0x201#32)] 0b0100#4).reg 0).getLsbD 0 = true ∧
      ((machine 0#32 0#32 [(0, 0x203#32)] 0b0100#4).reg 0).getLsbD 0 = true ∧
      ((machine 0#32 0#32 [(0, 0x202#32)] 0b0100#4).reg 0).getLsbD 0 = false := by decide

theorem witness_BranchTargets : addState.pc.toNat % 4 = 0 ∧
    (∃ t, decodeWord 0xEA800000#32 = .ok (.b .al 0xFE000000#32) ∧ exec (.b .al 0xFE000000#32) addState = .next t) ∧
    (∃ t, decodeWord 0xEB000002#32 = .ok (.bl .al 8#32) ∧ exec (.bl .al 8#32) addState = .next t) ∧
    (∃ t, decodeWord 0xE12FFF13#32 = .ok (.bx .al 3) ∧ exec (.bx .al 3) addState = .next t) :=
  ⟨by decide, ⟨_, rfl, rfl⟩, ⟨_, rfl, rfl⟩, ⟨_, rfl, rfl⟩⟩

theorem witness_BranchToSelf : (machine 0x40#32 0xEA000000#32 [] 0b0000#4).run = .running ∧
    fetchWord (machine 0x40#32 0xEA000000#32 [] 0b0000#4) = some 0xEA000000#32 ∧
    decodeWord 0xEA000000#32 = .ok (.b .al 0#32) ∧ condPassed .al (nzcv 0b0000#4) = true := by decide

/-- A step that completes and one that faults, each with its result. -/
theorem witness_StepResult :
    (∃ t r, step addState = .next t ∧ stepResult addState = some r ∧ t.run = .running) ∧
      (∃ t r, step (machine 0#32 0xE5910000#32 [] 0b0000#4) = .next t ∧
        stepResult (machine 0#32 0xE5910000#32 [] 0b0000#4) = some r ∧ t.run = .faulted .unknownOperation) :=
  ⟨⟨_, _, rfl, rfl, by decide⟩, ⟨_, _, rfl, rfl, by decide⟩⟩

/-- An instruction that warns (`MOV R0, PC`) and one that does not. -/
theorem witness_PcOperandWarning : (machine 0x20#32 0xE1A0000F#32 [] 0b0000#4).run = .running ∧
    fetchDecode (machine 0x20#32 0xE1A0000F#32 [] 0b0000#4) =
      .ok ⟨0xE1A0000F#32, .mov { cond := .al, s := false, rn := 0, rd := 0, op2 := .regImm 15 .lsl 0#5 }⟩ ∧
    fetchDecode addState = .ok ⟨0xE0910002#32, .add (plain true)⟩ := by decide

theorem witness_NoStepResultHalts : (∃ r, stepResult addState = some r) ∧ stepResult faultedState = none := ⟨⟨_, rfl⟩, rfl⟩

/-- A step, of which InvalidRegisterIndexIsNeverRaised, PcChangesOnly and the run statements speak. -/
theorem witness_Step : (∃ t, step addState = .next t) ∧ (∃ t, Sys2Proof.core.run 1 addState = .next t) := ⟨⟨_, rfl⟩, ⟨_, rfl⟩⟩

/-- Every clause of the flag writers: S = 0, a logical operation, a branch, a failed condition. -/
theorem witness_FlagsAreWritten :
    (∃ t, exec (.add (plain false)) addState = .next t) ∧ resultFields? (.add (plain false)) = some (plain false) ∧
      (plain false).s = false ∧ (∃ t, exec (.and (plain true)) addState = .next t) ∧ isLogical (.and (plain true)) = true ∧
      (∃ t, exec (.b .ne 8#32) addState = .next t) ∧ dpFields? (.b .ne 8#32) = none ∧
      (∃ t, exec (.b .eq 8#32) addState = .next t) ∧ condPassed (Instr.b .eq 8#32).cond addState.flags = false :=
  ⟨⟨_, rfl⟩, by decide, by decide, ⟨_, rfl⟩, by decide, ⟨_, rfl⟩, by decide, ⟨_, rfl⟩, by decide⟩

/-- A register that an instruction changes: the Rd of a MOV, the link register of a BL. -/
theorem witness_RegistersAreWritten :
    (∃ t, exec (.mov (plain false)) addState = .next t ∧ t.reg 0 ≠ addState.reg 0) ∧
      (∃ t, exec (.bl .al 8#32) addState = .next t ∧ t.reg 14 ≠ addState.reg 14) :=
  ⟨⟨_, rfl, by decide⟩, ⟨_, rfl, by decide⟩⟩

theorem witness_EveryStepKeepsTheInvariant : addState.Inv ∧ (∃ t, step addState = .next t) ∧ State.reset.Inv :=
  ⟨inv_addState, ⟨_, rfl⟩, ⟨by decide, by decide, by decide⟩⟩

end Sys2Proof.Machine.Tests
end

section
/-!
PROOFS of the memory family: the fetched word is little-endian (R53), and a step neither writes the memory nor reads it
beyond the fetched word (R55). The second is a simulation: every operation a step is made of commutes with putting another
memory behind the fetch interface (`State.setMem`).
-/
namespace Sys2Proof.Machine

/-! ### The bytes of a fetched word -/

/-- Above the lowest byte, the bytes of an append are those of its high part, one place further down. -/
theorem extractByte_append_succ {v : Nat} (hi : BitVec v) (lo : Byte) (k : Nat) :
    (hi ++ lo).extractLsb' (8 * (k + 1)) 8 = hi.extractLsb' (8 * k) 8 := by
  rw [BitVec.extractLsb'_append_eq_of_le (by omega), show 8 * (k + 1) - 8 = 8 * k by omega]

/-- Byte `k` of a word put together from four bytes. -/
theorem wordOfBytes_extractByte (byte : Nat → Byte) {k : Nat} (hk : k < 4) :
    (wordOfBytes (byte 0) (byte 1) (byte 2) (byte 3)).extractLsb' (8 * k) 8 = byte k := by
  match k, hk with
  | 0, _ => exact BitVec.extractLsb'_append_eq_right
  | 1, _ => exact (extractByte_append_succ _ _ 0).trans BitVec.extractLsb'_append_eq_right
  | 2, _ =>
    exact (extractByte_append_succ _ _ 1).trans
      ((extractByte_append_succ _ _ 0).trans BitVec.extractLsb'_append_eq_right)
  | 3, _ =>
    exact (extractByte_append_succ _ _ 2).trans
      ((extractByte_append_succ _ _ 1).trans BitVec.extractLsb'_append_eq_left)

/-- Settles O5: the fetch succeeds (R52) and its word is the four bytes put together (R53). -/
theorem fetchedWordIsLittleEndian : Obligations.FetchedWordIsLittleEndian := by
  intro s hs
  exact ⟨_, (fetchWord_eq s).trans (if_pos hs),
    fun _ hk => wordOfBytes_extractByte (fun k => s.mem.byteAt (s.pc.toNat + k)) hk⟩

/-! ### A step, from its fetch or its latch -/

theorem step_of_fetchDecode_error {s : State} {c : Cause} (hr : s.run = .running) (h : fetchDecode s = .error c) :
    step s = .next (raiseFatal s c) := by
  simp only [step, hr, h]

theorem step_of_fetchDecode_ok {s : State} {d : Decoded} (hr : s.run = .running) (h : fetchDecode s = .ok d) :
    step s = .next (commit s (effectOf d.instr s)) := by
  simp only [step, hr, h, exec_eq]

/-- Only a faulted core stops, and with its own cause (R225). -/
theorem step_fault_cases {s : State} {f : Fault} (h : step s = .fault f) : ∃ c, s.run = .faulted c ∧ f = .stopped c := by
  cases hr : s.run with
  | running =>
    obtain ⟨t, ht⟩ := step_of_running hr
    rw [ht] at h
    cases h
  | faulted c =>
    rw [step_of_faulted hr] at h
    cases h
    exact ⟨c, rfl, rfl⟩

/-! ### A step writes no memory -/

theorem commit_effectOf_mem (i : Instr) (s : State) : (commit s (effectOf i s)).mem = s.mem := by
  obtain ⟨c, -, h⟩ | ⟨-, h⟩ := commit_cases s (effectOf i s)
  · rw [h, raiseFatal_mem]
  · rw [h, setReg_mem, (effectOf_frame i s).1]

/-- A step writes no memory (R55). -/
theorem step_mem {s t : State} (h : step s = .next t) : t.mem = s.mem := by
  obtain ⟨-, ⟨c, -, rfl⟩ | ⟨d, -, rfl⟩⟩ := step_next_cases h
  · exact raiseFatal_mem s c
  · exact commit_effectOf_mem d.instr s

/-! ### Another memory behind the fetch interface -/

theorem raiseFatal_setMem (s : State) (m : Memory) (c : Cause) : raiseFatal (s.setMem m) c = (raiseFatal s c).setMem m := rfl

/-- An executor's effect with another memory in its state; the step result is the same. -/
def Effect.setMem (e : Effect) (m : Memory) : Effect := { e with state := e.state.setMem m }

theorem skip_setMem (s : State) (m : Memory) : Effect.skip (s.setMem m) = (Effect.skip s).setMem m := rfl

theorem commit_setMem (s : State) (e : Effect) (m : Memory) : commit (s.setMem m) (e.setMem m) = (commit s e).setMem m := by
  simp only [commit, Effect.setMem]
  cases e.result.errorCode <;> rfl

theorem writeBack_setMem (d : DPFields) (o : AluOut) (s : State) (m : Memory) :
    writeBack d o (s.setMem m) = (writeBack d o s).setMem m := by
  simp only [writeBack]
  split <;> split <;> rfl

/-- The data-processing executor commutes with `setMem`. -/
theorem executeDP_setMem (d : DPFields) (s : State) (m : Memory) (o : AluOut) :
    executeDP d (s.setMem m) o = (executeDP d s o).setMem m := by
  cases h : condPassed d.cond s.flags with
  | false => rw [executeDP_failed o h, executeDP_failed o (s := s.setMem m) h, skip_setMem]
  | true =>
    rw [executeDP_passed o h, executeDP_passed o (s := s.setMem m) h, writeBack_setMem]
    rfl

/-- No executor reads the memory: each commutes with `setMem`. What an operation computes is the same by definition, since
its operands read registers and flags only (R140, R164); so only the writes are left to move. -/
theorem effectOf_setMem (i : Instr) (s : State) (m : Memory) : effectOf i (s.setMem m) = (effectOf i s).setMem m := by
  cases i with
  | b c o =>
    simp only [effectOf, effectB, apply_ite (Effect.setMem · m)]
    rfl
  | bl c o =>
    simp only [effectOf, effectBl, apply_ite (Effect.setMem · m)]
    rfl
  | bx c r =>
    simp only [effectOf, effectBx, apply_ite (Effect.setMem · m)]
    rfl
  | _ d => exact executeDP_setMem d s m _

/-- The fetch is the only reader of the memory: states that fetch the same word decode alike. -/
theorem fetchDecode_setMem {s : State} {m : Memory} (h : fetchWord (s.setMem m) = fetchWord s) :
    fetchDecode (s.setMem m) = fetchDecode s := by
  rw [fetchDecode, fetchDecode, h]

/-! ### A step over another memory -/

/-- A step that answers, from a state with another memory that gives the same fetched word. -/
theorem step_setMem_next {s t : State} {m : Memory} (hw : fetchWord (s.setMem m) = fetchWord s) (h : step s = .next t) :
    step (s.setMem m) = .next (t.setMem m) := by
  have hfd := fetchDecode_setMem hw
  obtain ⟨hr, ⟨c, hc, rfl⟩ | ⟨d, hd, rfl⟩⟩ := step_next_cases h
  · rw [step_of_fetchDecode_error (s := s.setMem m) hr (hfd.trans hc), raiseFatal_setMem]
  · rw [step_of_fetchDecode_ok (s := s.setMem m) hr (hfd.trans hd), effectOf_setMem, commit_setMem]

/-- A step that stops looks at the latch alone. -/
theorem step_setMem_fault {s : State} {f : Fault} (m : Memory) (h : step s = .fault f) : step (s.setMem m) = .fault f := by
  obtain ⟨c, hr, rfl⟩ := step_fault_cases h
  exact step_of_faulted hr

/-- Settles O9: no executor writes the memory, and every part of a step after the fetch commutes with `setMem`. -/
theorem stepDependsOnMemoryOnlyThroughTheFetchedWord : Obligations.StepDependsOnMemoryOnlyThroughTheFetchedWord :=
  fun _ m hw => ⟨fun _ h => ⟨step_mem h, step_setMem_next hw h⟩, fun _ h => step_setMem_fault m h⟩

end Sys2Proof.Machine
end

section
/-!
PROOFS of the encoding family: the fields of a decoded data-processing word (R73, R75). Inversion of the decoder: of the three
classes only data-processing gives an instruction with data-processing fields, and these are the ones the decoder split off.
-/
namespace Sys2Proof.Machine

/-! ### Which instructions have data-processing fields -/

/-- Every operation code makes an instruction that holds the fields it was given (R80). -/
@[simp] theorem dpFields?_ofOpcode (op : BitVec 4) (d : DPFields) : dpFields? (Instr.ofOpcode op d) = some d := by
  unfold Instr.ofOpcode
  split <;> rfl

theorem dpFields?_decodeBranch (c : Cond) (w : Word) : dpFields? (decodeBranch c w).instr = none := by
  simp only [decodeBranch]
  split <;> rfl

theorem dpFields?_decodeBranchExchange (c : Cond) (w : Word) : dpFields? (decodeBranchExchange c w).instr = none := rfl

/-! ### The fields of a decoded word -/

/-- A word that decodes to an instruction with data-processing fields was decoded as data-processing: the instruction is the
one that bits 24:21 select, and each field is read from its place (R73, R76). -/
theorem dpFields_of_decodeWord {w : Word} {i : Instr} {d : DPFields} (h : decodeWord w = .ok i)
    (hd : dpFields? i = some d) :
    i = Instr.ofOpcode (w.extractLsb' 21 4) d ∧ ∃ c : Cond, c.code = w.extractLsb' 28 4 ∧
      d = { cond := c, s := w.getLsbD 20, rn := regField w 16, rd := regField w 12, op2 := decodeOperand2 w } := by
  obtain ⟨c, hc, ⟨-, rfl⟩ | ⟨-, rfl⟩ | ⟨-, -, rfl⟩⟩ := decodeWord_cases h
  · rw [dpFields?_decodeBranchExchange] at hd
    cases hd
  · rw [dpFields?_decodeBranch] at hd
    cases hd
  · rw [decodeDataProcessing, dpFields?_ofOpcode] at hd
    cases hd
    exact ⟨rfl, c, hc, rfl⟩

/-- Bit 25 alone tells the immediate form of operand 2 from the register forms (R75). -/
theorem decodeOperand2_eq_imm_iff (w : Word) :
    decodeOperand2 w = .imm (w.extractLsb' 8 4) (w.extractLsb' 0 8) ↔ w.getLsbD 25 = true := by
  unfold decodeOperand2
  split
  case isTrue h => exact iff_of_true rfl h
  case isFalse h => split <;> exact iff_of_false nofun h

/-- Settles O12: the decoder's fields are the word's bits (R73), and its operand 2 is immediate as bit 25 says (R75). -/
theorem dataProcessingFieldsAreTheWordsBits : Obligations.DataProcessingFieldsAreTheWordsBits := by
  intro w i d h hd
  obtain ⟨hi, c, hc, rfl⟩ := dpFields_of_decodeWord h hd
  exact ⟨hi, hc, rfl, regField_val w 16, regField_val w 12, (decodeOperand2_eq_imm_iff w).symm⟩

end Sys2Proof.Machine
end

section
/-!
PROOFS of the flags-and-conditions family: the condition table (R120), and the document's two properties of an addition's
flags (R113, R115). The sign-bit rule for overflow is the library's `BitVec.saddOverflow`, which is defined by the range.
-/
namespace Sys2Proof.Machine

/-! ### The condition table (R120), one row a condition -/

theorem condPassed_eq_iff (f : StatusReg) : condPassed .eq f = true ↔ f.z = true := .rfl

theorem condPassed_ne_iff (f : StatusReg) : condPassed .ne f = true ↔ f.z = false := by
  rw [condPassed, Bool.not_eq_true']

theorem condPassed_cs_iff (f : StatusReg) : condPassed .cs f = true ↔ f.c = true := .rfl

theorem condPassed_cc_iff (f : StatusReg) : condPassed .cc f = true ↔ f.c = false := by
  rw [condPassed, Bool.not_eq_true']

theorem condPassed_mi_iff (f : StatusReg) : condPassed .mi f = true ↔ f.n = true := .rfl

theorem condPassed_pl_iff (f : StatusReg) : condPassed .pl f = true ↔ f.n = false := by
  rw [condPassed, Bool.not_eq_true']

theorem condPassed_vs_iff (f : StatusReg) : condPassed .vs f = true ↔ f.v = true := .rfl

theorem condPassed_vc_iff (f : StatusReg) : condPassed .vc f = true ↔ f.v = false := by
  rw [condPassed, Bool.not_eq_true']

theorem condPassed_hi_iff (f : StatusReg) : condPassed .hi f = true ↔ f.c = true ∧ f.z = false := by
  rw [condPassed, Bool.and_eq_true, Bool.not_eq_true']

theorem condPassed_ls_iff (f : StatusReg) : condPassed .ls f = true ↔ f.c = false ∨ f.z = true := by
  rw [condPassed, Bool.or_eq_true, Bool.not_eq_true']

theorem condPassed_ge_iff (f : StatusReg) : condPassed .ge f = true ↔ f.n = f.v := beq_iff_eq

theorem condPassed_lt_iff (f : StatusReg) : condPassed .lt f = true ↔ f.n ≠ f.v := bne_iff_ne

theorem condPassed_gt_iff (f : StatusReg) : condPassed .gt f = true ↔ f.z = false ∧ f.n = f.v := by
  rw [condPassed, Bool.and_eq_true, Bool.not_eq_true', beq_iff_eq]

theorem condPassed_le_iff (f : StatusReg) : condPassed .le f = true ↔ f.z = true ∨ f.n ≠ f.v := by
  rw [condPassed, Bool.or_eq_true, bne_iff_ne]

theorem condPassed_al (f : StatusReg) : condPassed .al f = true := rfl

/-- Settles O21, by the row of each condition. -/
theorem conditionsTestTheTabulatedFlags : Obligations.ConditionsTestTheTabulatedFlags := fun f =>
  ⟨condPassed_eq_iff f, condPassed_ne_iff f, condPassed_cs_iff f, condPassed_cc_iff f, condPassed_mi_iff f,
    condPassed_pl_iff f, condPassed_vs_iff f, condPassed_vc_iff f, condPassed_hi_iff f, condPassed_ls_iff f,
    condPassed_ge_iff f, condPassed_lt_iff f, condPassed_gt_iff f, condPassed_le_iff f, condPassed_al f⟩

/-! ### The flags of an addition -/

theorem extractCarryAdd_iff (a b : Word) : extractCarryAdd a b = true ↔ 2 ^ 32 ≤ a.toNat + b.toNat := decide_eq_true_iff

/-- R115's rule (operands of one sign, a result of the other) is the signed overflow of the sum. -/
theorem extractOverflowAdd_eq_saddOverflow (a b : Word) : extractOverflowAdd a b (a + b) = a.saddOverflow b :=
  (BitVec.saddOverflow_eq a b).symm

/-- Signed overflow of a word addition is the unbounded signed sum leaving the range of a word. -/
theorem saddOverflow_word_iff (a b : Word) :
    a.saddOverflow b = true ↔ a.toInt + b.toInt < -2 ^ 31 ∨ 2 ^ 31 - 1 < a.toInt + b.toInt := by
  rw [BitVec.saddOverflow, Bool.or_eq_true, decide_eq_true_iff, decide_eq_true_iff]
  omega

/-- Settles O24: carry is R113's own test, and overflow is the library's signed overflow. -/
theorem additionFlagsAreCarryAndSignedRange : Obligations.AdditionFlagsAreCarryAndSignedRange := fun a b =>
  ⟨extractCarryAdd_iff a b, by rw [extractOverflowAdd_eq_saddOverflow, saddOverflow_word_iff]⟩

end Sys2Proof.Machine
end

section
/-!
PROOFS of the second-operand family: the rotated immediate (R141), from what a rotation does to each bit of a word (R149).
-/
namespace Sys2Proof.Machine

/-- Bit `j` of a rotated word is the bit `n` places above it, going round at 32: either side of the wrap (R149). -/
theorem getLsbD_ror32 (v : Word) (n : Nat) {j : Nat} (hj : j < 32) : (ror32 v n).getLsbD j = v.getLsbD ((j + n) % 32) := by
  rw [ror32_eq, BitVec.getLsbD_rotateRight]
  by_cases h : j < 32 - n % 32
  · have hbelow : n % 32 + j = (j + n) % 32 := by omega
    rw [decide_eq_true h, cond_true, hbelow]
  · have hwrapped : j - (32 - n % 32) = (j + n) % 32 := by omega
    rw [decide_eq_false h, cond_false, decide_eq_true hj, Bool.true_and, hwrapped]

@[simp] theorem operand2_imm (rot : BitVec 4) (imm8 : BitVec 8) (s : State) :
    operand2 (.imm rot imm8) s = ror32 (imm8.setWidth 32) (2 * rot.toNat) := rfl

/-- Settles O26: the bits of a rotation (R149), at the zero-extended immediate and twice the rotate field. -/
theorem immediateOperandIsRotatedRight : Obligations.ImmediateOperandIsRotatedRight := by
  intro rot imm8 s j hj
  have hbit : (j + 2 * rot.toNat) % 32 < 32 := Nat.mod_lt _ (by decide)
  rw [operand2_imm, getLsbD_ror32 _ _ hj, BitVec.getLsbD_setWidth, decide_eq_true hbit, Bool.true_and]

end Sys2Proof.Machine
end

section
/-!
PROOFS of the branch family: B (R202), BL (R203), BX to a Thumb target (R206), and the word alignment of every branch target
(R208). An executor's branch effect is one of three (skip, raise, taken), said once for each condition it turns on; `commit`
does the rest.
-/
namespace Sys2Proof.Machine

/-! ### The offset of a decoded branch (R83) -/

/-- The offset is four times the signed field: shifting the 24-bit field left by 2 cannot leave the range of a word. -/
theorem branchOffset_toInt (imm24 : BitVec 24) : (branchOffset imm24).toInt = 4 * imm24.toInt := by
  have hlo := BitVec.le_toInt imm24
  have hhi := BitVec.toInt_lt (x := imm24)
  have hfour : (BitVec.twoPow 32 2).toInt = 4 := rfl
  rw [branchOffset, BitVec.shiftLeft_eq_mul_twoPow, BitVec.toInt_mul, hfour, BitVec.toInt_signExtend_of_le (by decide),
    mul_comm]
  exact Int.bmod_eq_of_le (by omega) (by omega)

theorem branchOffset_aligned (imm24 : BitVec 24) : (branchOffset imm24).toNat % 4 = 0 := by
  rw [branchOffset, BitVec.toNat_shiftLeft, Nat.shiftLeft_eq]
  omega

/-- A word of the branch space is the BL or the B of its bit 24, with the offset of its low 24 bits (R82, R84). -/
theorem branchWordsOf_decodeBranch {link : Bool} {mk : Cond → Word → Instr}
    (hmk : ∀ (c : Cond) (w : Word), w.getLsbD 24 = link →
      (decodeBranch c w).instr = mk c (branchOffset (w.extractLsb' 0 24))) : BranchWordsOf link mk := by
  intro w c hc hcls hlink
  refine ⟨branchOffset (w.extractLsb' 0 24), ?_, branchOffset_toInt _⟩
  rw [decodeWord_branch hc hcls, hmk c w hlink]

theorem branchWordsOf_b : BranchWordsOf false .b :=
  branchWordsOf_decodeBranch fun _ _ h => if_neg (Bool.eq_false_iff.mp h)

theorem branchWordsOf_bl : BranchWordsOf true .bl :=
  branchWordsOf_decodeBranch fun _ _ h => if_pos h

/-- A decoded word that is no data-processing instruction is a BX, or a B or BL with an offset that is a multiple of 4. -/
theorem decodeWord_branch_cases {w : Word} {i : Instr} (h : decodeWord w = .ok i) (hdp : dpFields? i = none) :
    (∃ c rm, i = .bx c rm) ∨ ∃ c offset, offset.toNat % 4 = 0 ∧ (i = .b c offset ∨ i = .bl c offset) := by
  obtain ⟨c, -, ⟨-, rfl⟩ | ⟨-, rfl⟩ | ⟨-, -, rfl⟩⟩ := decodeWord_cases h
  · exact .inl ⟨c, regField w 0, rfl⟩
  · exact .inr ⟨c, _, branchOffset_aligned (w.extractLsb' 0 24), (ite_eq_or_eq _ _ _).symm⟩
  · rw [decodeDataProcessing, dpFields?_ofOpcode] at hdp
    cases hdp

/-! ### The effect of each branch when its condition passes (`effectOf_failed` has the other case) -/

theorem effectOf_b_passed {c : Cond} {s : State} (offset : Word) (h : condPassed c s.flags = true) :
    effectOf (.b c offset) s = taken s (s.pc + offset) := if_pos h

theorem effectOf_bl_passed {c : Cond} {s : State} (offset : Word) (h : condPassed c s.flags = true) :
    effectOf (.bl c offset) s = taken (s.setReg Config.lr (linkValue s)) (s.pc + offset) := if_pos h

theorem effectOf_bx_thumb {c : Cond} {rm : Reg} {s : State} (hrm : rm ≠ Config.pc) (h : condPassed c s.flags = true)
    (hbit : (s.reg rm).getLsbD 0 = true) : effectOf (.bx c rm) s = .raise s .unsupportedMode := by
  rw [effectOf, effectBx, if_neg hrm, if_pos h, if_pos hbit]

theorem effectOf_bx_taken {c : Cond} {rm : Reg} {s : State} (hrm : rm ≠ Config.pc) (h : condPassed c s.flags = true)
    (hbit : (s.reg rm).getLsbD 0 = false) : effectOf (.bx c rm) s = taken s (s.reg rm &&& 0xFFFFFFFC#32) := by
  rw [effectOf, effectBx, if_neg hrm, if_pos h, if_neg (Bool.eq_false_iff.mp hbit)]

/-! ### Instructions that only move the PC -/

/-- An effect without a register write of its own moves the PC and nothing else. -/
theorem execMovesPc_of_commit {i : Instr} {s : State} {target : Word}
    (h : commit s (effectOf i s) = s.setReg Config.pc target) : ExecMovesPc i s target :=
  ⟨s.setReg Config.pc target, by rw [exec_eq, h], fun _ hk => reg_setReg_of_ne s target hk, pc_setReg_pc s target,
    rfl, rfl, rfl, fun _ => rfl⟩

/-- With a failed condition the PC moves on by 4 (R121), but for BX with Rm = 15 (R205). -/
theorem execMovesPc_of_failed {i : Instr} {s : State} (h : condPassed i.cond s.flags = false)
    (hbx : ∀ c, i ≠ .bx c Config.pc) : ExecMovesPc i s (s.pc + 4#32) :=
  execMovesPc_of_commit (by rw [effectOf_failed h hbx, commit_skip])

/-- Settles O43: the words of B, then the two values of the condition. -/
theorem branchAddsTheOffsetToItsOwnAddress : Obligations.BranchAddsTheOffsetToItsOwnAddress := by
  refine ⟨branchWordsOf_b, ?_⟩
  rintro c offset s target rfl
  cases h : condPassed c s.flags with
  | false =>
    have he := effectOf_failed (i := .b c offset) h nofun
    exact ⟨execMovesPc_of_failed h nofun, by rw [he]; rfl⟩
  | true =>
    have he := effectOf_b_passed offset h
    exact ⟨execMovesPc_of_commit (by rw [he, commit_taken, if_pos rfl]), by rw [he]; rfl⟩

/-! ### BL's link write -/

/-- BL when its condition passes: the link value and the target, both from the PC of the start state (R203). -/
theorem exec_bl_passed {c : Cond} {s : State} (offset : Word) (h : condPassed c s.flags = true) :
    exec (.bl c offset) s = .next ((s.setReg Config.lr (linkValue s)).setReg Config.pc (s.pc + offset)) := by
  rw [exec_eq, effectOf_bl_passed offset h, commit_taken]

/-- Settles O44: the words of BL, then the two values of the condition; the link write survives the write of the PC. -/
theorem branchAndLinkStoresPcMinusFour : Obligations.BranchAndLinkStoresPcMinusFour := by
  refine ⟨branchWordsOf_bl, fun c offset s => ⟨fun h => execMovesPc_of_failed h nofun, fun h => ?_⟩⟩
  have hlr : Config.lr ≠ Config.pc := by decide
  refine ⟨_, exec_bl_passed offset h, ?_, pc_setReg_pc _ _, ?_, rfl, rfl, rfl, fun _ => rfl⟩
  · rw [reg_setReg_of_ne _ _ hlr, reg_setReg_self, linkValue]
  · intro k hk hkpc
    rw [reg_setReg_of_ne _ _ hkpc, reg_setReg_of_ne _ _ hk]

/-! ### Word alignment -/

theorem add_aligned {a b : Word} (ha : a.toNat % 4 = 0) (hb : b.toNat % 4 = 0) : (a + b).toNat % 4 = 0 := by
  rw [BitVec.toNat_add]
  omega

theorem clearLowBits_aligned (v : Word) : (v &&& 0xFFFFFFFC#32).toNat % 4 = 0 := by
  have hmask : (0xFFFFFFFC#32 : Word).extractLsb' 0 2 = 0#2 := by decide
  rw [← lowBits_eq_zero_iff, BitVec.extractLsb'_and, hmask, BitVec.and_zero]

theorem nextInstruction_aligned {s : State} (hs : s.pc.toNat % 4 = 0) : (nextInstruction s).toNat % 4 = 0 :=
  add_aligned hs rfl

/-- From an aligned PC, an effect with an aligned next PC leaves the PC aligned: a fatal one leaves it as it was. -/
theorem commit_pc_aligned {s : State} {e : Effect} (hs : s.pc.toNat % 4 = 0) (he : e.result.nextPc.toNat % 4 = 0) :
    (commit s e).pc.toNat % 4 = 0 := by
  obtain ⟨c, -, h⟩ | ⟨-, h⟩ := commit_cases s e
  · rwa [h, raiseFatal_pc]
  · rwa [h, pc_setReg_pc]

/-- The shape of B and BL: a taken branch to an aligned target or, by the condition, a skip. -/
theorem takenOrSkip_nextPc_aligned (passed : Bool) {s s' : State} {target : Word} (hs : s.pc.toNat % 4 = 0)
    (ht : target.toNat % 4 = 0) : (if passed then taken s' target else .skip s).result.nextPc.toNat % 4 = 0 := by
  cases passed with
  | false => exact nextInstruction_aligned hs
  | true => exact ht

theorem effectBx_nextPc_aligned (c : Cond) (rm : Reg) {s : State} (hs : s.pc.toNat % 4 = 0) :
    (effectBx c rm s).result.nextPc.toNat % 4 = 0 := by
  unfold effectBx
  split
  case isTrue => exact nextInstruction_aligned hs
  case isFalse =>
    split
    case isTrue =>
      split
      case isTrue => exact nextInstruction_aligned hs
      case isFalse => exact clearLowBits_aligned _
    case isFalse => exact nextInstruction_aligned hs

/-- Settles O47: the decoder gives aligned offsets only, BX clears the low bits, and a fault leaves the aligned PC. -/
theorem branchTargetsAreWordAligned : Obligations.BranchTargetsAreWordAligned := by
  intro w i s t hw hi hs ht
  have hdp : dpFields? i = none := by
    obtain ⟨_, _, rfl⟩ | ⟨_, _, rfl⟩ | ⟨_, _, rfl⟩ := hi <;> rfl
  rw [exec_eq] at ht
  cases ht
  apply commit_pc_aligned hs
  obtain ⟨c, rm, rfl⟩ | ⟨c, offset, ho, rfl | rfl⟩ := decodeWord_branch_cases hw hdp
  · exact effectBx_nextPc_aligned c rm hs
  · exact takenOrSkip_nextPc_aligned _ hs (add_aligned hs ho)
  · exact takenOrSkip_nextPc_aligned _ hs (add_aligned hs ho)

/-! ### BX to a Thumb target -/

/-- Settles O46, by bit 0 of the target: set, the effect is the raise; clear, it is a taken branch. -/
theorem bxToThumbTargetIsFatal : Obligations.BxToThumbTargetIsFatal := by
  intro c rm s hrm h
  cases hbit : (s.reg rm).getLsbD 0 with
  | true =>
    have he := effectOf_bx_thumb hrm h hbit
    have hexec : exec (.bx c rm) s = .next (raiseFatal s .unsupportedMode) := by rw [exec_eq, he, commit_raise]
    exact ⟨iff_of_true (by rw [he]; rfl) rfl, fun _ => ⟨_, hexec, fun _ => rfl, rfl, rfl⟩, nofun⟩
  | false =>
    have he := effectOf_bx_taken hrm h hbit
    have hcode : (effectOf (.bx c rm) s).result.errorCode = .none := by rw [he]; rfl
    exact ⟨iff_of_false (by rw [hcode]; nofun) nofun, nofun, fun _ => ⟨hcode, _, exec_eq _ s, by rw [he]; rfl⟩⟩

end Sys2Proof.Machine
end

section
/-!
PROOFS of the round trip between words and instructions (R72 to R93). The decoder splits a data-processing word into fields
and the encoder puts them together again; the one bit it does not keep is bit 7 of the register-amount form (R79), so both
directions go through the word with that bit flipped.
-/
namespace Sys2Proof.Machine

/-! ### Data-processing instructions as an operation code and fields (R80) -/

theorem exists_ofOpcode_of_dpFields {i : Instr} {d : DPFields} (h : dpFields? i = some d) : ∃ op, i = .ofOpcode op d :=
  match i, h with
  | .and _, rfl => ⟨0b0000#4, rfl⟩
  | .eor _, rfl => ⟨0b0001#4, rfl⟩
  | .sub _, rfl => ⟨0b0010#4, rfl⟩
  | .rsb _, rfl => ⟨0b0011#4, rfl⟩
  | .add _, rfl => ⟨0b0100#4, rfl⟩
  | .adc _, rfl => ⟨0b0101#4, rfl⟩
  | .sbc _, rfl => ⟨0b0110#4, rfl⟩
  | .rsc _, rfl => ⟨0b0111#4, rfl⟩
  | .tst _, rfl => ⟨0b1000#4, rfl⟩
  | .teq _, rfl => ⟨0b1001#4, rfl⟩
  | .cmp _, rfl => ⟨0b1010#4, rfl⟩
  | .cmn _, rfl => ⟨0b1011#4, rfl⟩
  | .orr _, rfl => ⟨0b1100#4, rfl⟩
  | .mov _, rfl => ⟨0b1101#4, rfl⟩
  | .bic _, rfl => ⟨0b1110#4, rfl⟩
  | .mvn _, rfl => ⟨0b1111#4, rfl⟩

theorem encode_ofOpcode (op : BitVec 4) (d : DPFields) : encode (.ofOpcode op d) = encodeDP op d := by
  obtain ⟨n, hn⟩ := op
  interval_cases n <;> rfl

theorem wf_ofOpcode (op : BitVec 4) (d : DPFields) : (Instr.ofOpcode op d).wf = true := by
  unfold Instr.ofOpcode
  split <;> rfl

/-- The fields that the data-processing decoder splits off a word (R73, R76). -/
def dpFieldsOf (c : Cond) (w : Word) : DPFields :=
  { cond := c, s := w.getLsbD 20, rn := regField w 16, rd := regField w 12, op2 := decodeOperand2 w }

theorem decodeDataProcessing_instr (c : Cond) (w : Word) :
    (decodeDataProcessing c w).instr = .ofOpcode (w.extractLsb' 21 4) (dpFieldsOf c w) := rfl

/-! ### The three forms of operand 2 (R75, R77) -/

theorem decodeOperand2_imm {w : Word} (h25 : w.getLsbD 25 = true) :
    decodeOperand2 w = .imm (w.extractLsb' 8 4) (w.extractLsb' 0 8) := if_pos h25

theorem decodeOperand2_regReg {w : Word} (h25 : w.getLsbD 25 = false) (h4 : w.getLsbD 4 = true) :
    decodeOperand2 w = .regReg (regField w 0) (.ofCode (w.extractLsb' 5 2)) (regField w 8) := by
  rw [decodeOperand2, if_neg (Bool.eq_false_iff.mp h25), if_pos h4]

theorem decodeOperand2_regImm {w : Word} (h25 : w.getLsbD 25 = false) (h4 : w.getLsbD 4 = false) :
    decodeOperand2 w = .regImm (regField w 0) (.ofCode (w.extractLsb' 5 2)) (w.extractLsb' 7 5) := by
  rw [decodeOperand2, if_neg (Bool.eq_false_iff.mp h25), if_neg (Bool.eq_false_iff.mp h4)]

/-- BX's pattern lies in the register-amount form: bit 25 clear and bit 4 set (R87). -/
theorem not_bxPattern_of_bits {w : Word} (h : w.getLsbD 25 = true ∨ w.getLsbD 4 = false) :
    w.extractLsb' 4 24 ≠ bxPattern := by
  intro hbx
  have h25 := congrArg (·.getLsbD 21) hbx
  have h4 := congrArg (·.getLsbD 0) hbx
  simp [bxPattern] at h25 h4
  simp [h25, h4] at h

/-! ### Decoding an encoded data-processing word -/

theorem encodeDP_eq_canonicalDP {op : BitVec 4} {d : DPFields}
    (h : (canonicalDP op d).getLsbD 25 = true ∨ (canonicalDP op d).getLsbD 4 = false) :
    encodeDP op d = canonicalDP op d := if_neg (not_bxPattern_of_bits h)

/-- The fields in the low twelve bits are those of the encoded operand 2. -/
theorem canonicalDP_low (op : BitVec 4) (d : DPFields) {lo len : Nat} (h : lo + len ≤ 12) :
    (canonicalDP op d).extractLsb' lo len = (encodeOperand2 d.op2).extractLsb' lo len :=
  BitVec.extractLsb'_append_eq_of_add_le h

theorem encodeOperand2_imm_fields (rot : BitVec 4) (imm8 : BitVec 8) :
    let w := encodeOperand2 (.imm rot imm8)
    w.extractLsb' 0 8 = imm8 ∧ w.extractLsb' 8 4 = rot :=
  ⟨BitVec.extractLsb'_append_eq_right, BitVec.extractLsb'_append_eq_left⟩

theorem encodeOperand2_regImm_fields (rm : Reg) (st : ShiftType) (shamt : BitVec 5) :
    let w := encodeOperand2 (.regImm rm st shamt)
    w.extractLsb' 0 4 = regBits rm ∧ w.extractLsb' 4 1 = 0#1 ∧ w.extractLsb' 5 2 = st.code ∧
      w.extractLsb' 7 5 = shamt := by
  refine ⟨BitVec.extractLsb'_append_eq_right, ?_, ?_, ?_⟩ <;>
    simp (disch := omega) only [encodeOperand2, BitVec.extractLsb'_append_eq_of_le,
      BitVec.extractLsb'_append_eq_of_add_le] <;>
    exact BitVec.extractLsb'_eq_self

theorem canonicalDP_regImm_bit4 (op : BitVec 4) {d : DPFields} {rm : Reg} {st : ShiftType} {shamt : BitVec 5}
    (hop : d.op2 = .regImm rm st shamt) : (canonicalDP op d).getLsbD 4 = false := by
  obtain ⟨-, h4, -, -⟩ := encodeOperand2_regImm_fields rm st shamt
  rw [getLsbD_eq_field, canonicalDP_low op d (by decide), hop, h4]
  rfl

theorem encodeOperand2_regReg_fields (rm : Reg) (st : ShiftType) (rs : Reg) :
    let w := encodeOperand2 (.regReg rm st rs)
    w.extractLsb' 0 4 = regBits rm ∧ w.extractLsb' 4 1 = 1#1 ∧ w.extractLsb' 5 2 = st.code ∧
      w.extractLsb' 8 4 = regBits rs := by
  refine ⟨BitVec.extractLsb'_append_eq_right, ?_, ?_, ?_⟩ <;>
    simp (disch := omega) only [encodeOperand2, BitVec.extractLsb'_append_eq_of_le,
      BitVec.extractLsb'_append_eq_of_add_le] <;>
    exact BitVec.extractLsb'_eq_self

/-- A word whose low twelve bits hold an encoded register form decodes to it, if bit 25 says so; bit 7 may differ from the
encoder's in the register-amount form. -/
theorem decodeOperand2_eq_regImm {w : Word} {rm : Reg} {st : ShiftType} {shamt : BitVec 5} (h25 : w.getLsbD 25 = false)
    (hrm : w.extractLsb' 0 4 = regBits rm) (h4 : w.extractLsb' 4 1 = 0#1) (hst : w.extractLsb' 5 2 = st.code)
    (hamt : w.extractLsb' 7 5 = shamt) : decodeOperand2 w = .regImm rm st shamt := by
  rw [decodeOperand2_regImm h25 (by rw [getLsbD_eq_field, h4]; rfl), regField_eq hrm, hst, shiftOfCode_code, hamt]

theorem decodeOperand2_eq_regReg {w : Word} {rm : Reg} {st : ShiftType} {rs : Reg} (h25 : w.getLsbD 25 = false)
    (hrm : w.extractLsb' 0 4 = regBits rm) (h4 : w.extractLsb' 4 1 = 1#1) (hst : w.extractLsb' 5 2 = st.code)
    (hrs : w.extractLsb' 8 4 = regBits rs) : decodeOperand2 w = .regReg rm st rs := by
  rw [decodeOperand2_regReg h25 (by rw [getLsbD_eq_field, h4]; rfl), regField_eq hrm, hst, shiftOfCode_code, regField_eq hrs]

/-- Operand 2 survives the encoding. In the immediate and the immediate-amount form bit 7 is a bit of the operand, and the
word is the canonical one; in the register-amount form no field holds it. -/
theorem decodeOperand2_encodeDP (op : BitVec 4) (d : DPFields) : decodeOperand2 (encodeDP op d) = d.op2 := by
  have h25 := canonicalDP_immediate op d
  have hlow {lo len : Nat} (h : lo + len ≤ 12) := canonicalDP_low op d h
  cases hop : d.op2 with
  | imm rot imm8 =>
    obtain ⟨himm, hrot⟩ := encodeOperand2_imm_fields rot imm8
    simp only [hop, Operand2.immediateBit] at h25 hlow
    rw [encodeDP_eq_canonicalDP (.inl h25), decodeOperand2_imm h25, hlow (by decide), hlow (by decide), himm, hrot]
  | regImm rm st shamt =>
    obtain ⟨hrm, h4, hst, hamt⟩ := encodeOperand2_regImm_fields rm st shamt
    simp only [hop, Operand2.immediateBit] at h25 hlow
    rw [encodeDP_eq_canonicalDP (.inr (canonicalDP_regImm_bit4 op hop))]
    exact decodeOperand2_eq_regImm h25 ((hlow (by decide)).trans hrm) ((hlow (by decide)).trans h4)
      ((hlow (by decide)).trans hst) ((hlow (by decide)).trans hamt)
  | regReg rm st rs =>
    obtain ⟨hrm, h4, hst, hrs⟩ := encodeOperand2_regReg_fields rm st rs
    rw [← encodeDP_bit op d _ (by decide)] at h25
    have hlow' {lo len : Nat} (h : lo + len ≤ 12) (h7 : 7 < lo ∨ lo + len ≤ 7) :=
      (encodeDP_field op d lo len h7).trans (hlow h)
    simp only [hop, Operand2.immediateBit] at h25 hlow'
    exact decodeOperand2_eq_regReg h25 ((hlow' (by decide) (by decide)).trans hrm) ((hlow' (by decide) (by decide)).trans h4)
      ((hlow' (by decide) (by decide)).trans hst) ((hlow' (by decide) (by decide)).trans hrs)

/-- Every field survives the encoding, and the word is in class 00 without BX's pattern. -/
theorem decodeWord_encodeDP (op : BitVec 4) (d : DPFields) : decodeWord (encodeDP op d) = .ok (.ofOpcode op d) := by
  have hcls : (encodeDP op d).extractLsb' 26 2 = 0b00#2 := by
    rw [encodeDP_field op d _ _ (by decide), canonicalDP_class]
  have hfields : dpFieldsOf d.cond (encodeDP op d) = d := by
    have hrn : regField (encodeDP op d) 16 = d.rn :=
      regField_eq ((encodeDP_field op d 16 4 (by decide)).trans (canonicalDP_rn op d))
    have hrd : regField (encodeDP op d) 12 = d.rd :=
      regField_eq ((encodeDP_field op d 12 4 (by decide)).trans (canonicalDP_rd op d))
    rw [dpFieldsOf, encodeDP_bit op d _ (by decide), canonicalDP_s, hrn, hrd, decodeOperand2_encodeDP]
  rw [decodeWord_dataProcessing (encodeDP_cond op d).symm hcls (encodeDP_not_bx op d), decodeDataProcessing_instr,
    hfields, encodeDP_field op d _ _ (by decide), canonicalDP_opcode]

/-! ### Decoding an encoded branch -/

/-- Dropping the two zero bits of the offset gives the 24-bit field back (R83). -/
@[simp] theorem branchOffset_field (imm24 : BitVec 24) : (branchOffset imm24).extractLsb' 2 24 = imm24 := by
  ext i hi
  have h2 : ¬ 2 + i ≤ 1 := by omega
  have h32 : 2 + i < 32 := by omega
  simp [branchOffset, BitVec.getElem_signExtend, hi, h2, h32]

/-- Every offset that is well formed is the offset of its own field (R83, R201). -/
theorem branchOffset_of_wf {offset : Word} (h : (offsetAligned offset && offsetInRange offset) = true) :
    branchOffset (offset.extractLsb' 2 24) = offset := by
  simp only [offsetAligned, offsetInRange, Bool.and_eq_true, beq_iff_eq, decide_eq_true_eq, lowBits_eq_zero_iff] at h
  obtain ⟨halign, hlo, hhi⟩ := h
  apply BitVec.eq_of_toInt_eq
  rw [branchOffset_toInt]
  rw [BitVec.toInt_eq_toNat_cond] at hlo hhi ⊢
  rw [BitVec.toInt_eq_toNat_cond, BitVec.extractLsb'_toNat, Nat.shiftRight_eq_div_pow]
  omega

theorem branchOffset_wf (imm24 : BitVec 24) :
    (offsetAligned (branchOffset imm24) && offsetInRange (branchOffset imm24)) = true := by
  have hlo := BitVec.le_toInt imm24
  have hhi := BitVec.toInt_lt (x := imm24)
  simp only [offsetAligned, offsetInRange, Bool.and_eq_true, beq_iff_eq, decide_eq_true_eq, lowBits_eq_zero_iff,
    branchOffset_aligned, branchOffset_toInt, true_and]
  omega

theorem encodeBranch_fields (c : Cond) (link : BitVec 1) (offset : Word) :
    let w := encodeBranch c link offset
    w.extractLsb' 0 24 = offset.extractLsb' 2 24 ∧ w.extractLsb' 24 1 = link ∧ w.extractLsb' 25 3 = 0b101#3 := by
  refine ⟨BitVec.extractLsb'_append_eq_right, ?_, ?_⟩ <;>
    simp (disch := omega) only [encodeBranch, BitVec.extractLsb'_append_eq_of_le,
      BitVec.extractLsb'_append_eq_of_add_le] <;>
    exact BitVec.extractLsb'_eq_self

/-- The word of a branch decodes to the B or the BL of its link bit, with the offset of its field (R82, R84). -/
theorem decodeWord_encodeBranch (c : Cond) (link : BitVec 1) {offset : Word}
    (h : (offsetAligned offset && offsetInRange offset) = true) :
    decodeWord (encodeBranch c link offset) = .ok (if link.getLsbD 0 then .bl c offset else .b c offset) := by
  obtain ⟨himm, hlink, hcls⟩ := encodeBranch_fields c link offset
  rw [decodeWord_branch (encodeBranch_cond c link offset).symm hcls, decodeBranch, getLsbD_eq_field, hlink, himm,
    branchOffset_of_wf h]

theorem decodeWord_encodeBranchExchange (c : Cond) (rm : Reg) :
    decodeWord (encodeBranchExchange c rm) = .ok (.bx c rm) := by
  have hbx : (encodeBranchExchange c rm).extractLsb' 4 24 = bxPattern := by
    simp (disch := omega) only [encodeBranchExchange, BitVec.extractLsb'_append_eq_of_le,
      BitVec.extractLsb'_append_eq_of_add_le]
    exact BitVec.extractLsb'_eq_self
  have hrm : regField (encodeBranchExchange c rm) 0 = rm := regField_eq BitVec.extractLsb'_append_eq_right
  rw [decodeWord_branchExchange (encodeBranchExchange_cond c rm).symm hbx, decodeBranchExchange, hrm]

/-! ### Decode after encode -/

/-- An instruction is data-processing or one of the three branches. -/
theorem dpFields?_cases (i : Instr) :
    (∃ d, dpFields? i = some d) ∨ (∃ c offset, i = .b c offset) ∨ (∃ c offset, i = .bl c offset) ∨
      ∃ c rm, i = .bx c rm := by
  cases i with
  | b c offset => exact .inr (.inl ⟨c, offset, rfl⟩)
  | bl c offset => exact .inr (.inr (.inl ⟨c, offset, rfl⟩))
  | bx c rm => exact .inr (.inr (.inr ⟨c, rm, rfl⟩))
  | _ d => exact .inl ⟨d, rfl⟩

theorem decodeWord_encode {i : Instr} (h : i.wf = true) : decodeWord (encode i) = .ok i := by
  obtain ⟨d, hd⟩ | ⟨c, offset, rfl⟩ | ⟨c, offset, rfl⟩ | ⟨c, rm, rfl⟩ := dpFields?_cases i
  · obtain ⟨op, rfl⟩ := exists_ofOpcode_of_dpFields hd
    rw [encode_ofOpcode, decodeWord_encodeDP]
  · exact decodeWord_encodeBranch c 0#1 h
  · exact decodeWord_encodeBranch c 1#1 h
  · exact decodeWord_encodeBranchExchange c rm

theorem decode_bytesOfWord {w : Word} {i : Instr} (h : decodeWord w = .ok i) : decode (bytesOfWord w) = .ok (i, []) := by
  rw [bytesOfWord, decode, wordOfBytes_bytes, h]

/-- Settles O18: one round trip per format, and the bytes of a word put together again. -/
theorem decodeOfEncodeIsIdentity : Obligations.DecodeOfEncodeIsIdentity := fun _ h =>
  ⟨decodeWord_encode h, decode_bytesOfWord (decodeWord_encode h)⟩

/-! ### Encode after decode -/

theorem field_one (w : Word) (k : Nat) : w.extractLsb' k 1 = BitVec.ofBool (w.getLsbD k) := by
  ext i hi
  obtain rfl : i = 0 := by omega
  simp

theorem immediateBit_decodeOperand2 (w : Word) : (decodeOperand2 w).immediateBit = w.extractLsb' 25 1 := by
  rw [field_one]
  unfold decodeOperand2
  cases w.getLsbD 25 with
  | true => rfl
  | false => cases w.getLsbD 4 <;> rfl

/-- Encoding gives back the operand bits it was decoded from: the fields of each form meet. Bit 7 of the register-amount form
belongs to no field, and the encoder leaves it clear (R79). -/
theorem encodeOperand2_decodeOperand2 {w : Word}
    (h : w.getLsbD 25 = true ∨ w.getLsbD 4 = false ∨ w.getLsbD 7 = false) :
    encodeOperand2 (decodeOperand2 w) = w.extractLsb' 0 12 := by
  cases h25 : w.getLsbD 25 with
  | true =>
    rw [decodeOperand2_imm h25]
    exact BitVec.extractLsb'_append_extractLsb'_eq_extractLsb' rfl
  | false =>
    cases h4 : w.getLsbD 4 with
    | false =>
      have f4 : w.extractLsb' 4 1 = 0#1 := by rw [field_one, h4]; rfl
      rw [decodeOperand2_regImm h25 h4, encodeOperand2, shiftCode_ofCode, regBits_regField, ← f4]
      simp (disch := rfl) only [BitVec.extractLsb'_append_extractLsb'_eq_extractLsb']
    | true =>
      have h7 : w.getLsbD 7 = false := by rw [h25, h4] at h; exact (h.resolve_left nofun).resolve_left nofun
      have f4 : w.extractLsb' 4 1 = 1#1 := by rw [field_one, h4]; rfl
      have f7 : w.extractLsb' 7 1 = 0#1 := by rw [field_one, h7]; rfl
      rw [decodeOperand2_regReg h25 h4, encodeOperand2, shiftCode_ofCode, regBits_regField, regBits_regField, ← f4, ← f7]
      simp (disch := rfl) only [BitVec.extractLsb'_append_extractLsb'_eq_extractLsb']

/-- A data-processing word is the canonical word of its fields, unless it has the ignored bit 7 set. -/
theorem canonicalDP_dpFieldsOf {w : Word} {c : Cond} (hc : c.code = w.extractLsb' 28 4)
    (hcls : w.extractLsb' 26 2 = 0b00#2) (h : w.getLsbD 25 = true ∨ w.getLsbD 4 = false ∨ w.getLsbD 7 = false) :
    canonicalDP (w.extractLsb' 21 4) (dpFieldsOf c w) = w := by
  simp only [canonicalDP, dpFieldsOf]
  rw [hc, ← hcls, ← field_one, immediateBit_decodeOperand2, encodeOperand2_decodeOperand2 h, regBits_regField,
    regBits_regField]
  simp (disch := rfl) only [BitVec.extractLsb'_append_extractLsb'_eq_extractLsb']
  exact BitVec.extractLsb'_eq_self

/-! ### The word with bit 7 flipped (R79) -/

theorem getLsbD_0x80 (j : Nat) : (0x80#32 : Word).getLsbD j = decide (j = 7) := by
  rw [show (0x80#32 : Word) = BitVec.twoPow 32 7 from rfl, BitVec.getLsbD_twoPow]
  simp [eq_comm]

theorem getLsbD_flip (w : Word) (j : Nat) : (w ^^^ 0x80#32).getLsbD j = (w.getLsbD j ^^ decide (j = 7)) := by
  rw [BitVec.getLsbD_xor, getLsbD_0x80]

theorem getLsbD_flip_of_ne (w : Word) {j : Nat} (h : j ≠ 7) : (w ^^^ 0x80#32).getLsbD j = w.getLsbD j := by
  rw [getLsbD_flip, decide_eq_false h, Bool.xor_false]

theorem extractLsb'_flip (w : Word) {lo len : Nat} (h : 7 < lo ∨ lo + len ≤ 7) :
    (w ^^^ 0x80#32).extractLsb' lo len = w.extractLsb' lo len := by
  apply BitVec.eq_of_getLsbD_eq
  intro i hi
  rw [BitVec.getLsbD_extractLsb', BitVec.getLsbD_extractLsb', getLsbD_flip_of_ne w (by omega)]

/-- Setting the bit that was flipped away gives the word back. -/
theorem flip_or {w : Word} (h7 : w.getLsbD 7 = true) : (w ^^^ 0x80#32) ||| 0x80#32 = w := by
  apply BitVec.eq_of_getLsbD_eq
  intro j _
  rw [BitVec.getLsbD_or, getLsbD_flip, getLsbD_0x80]
  by_cases hj : j = 7
  · rw [hj, h7]; rfl
  · simp [hj]

/-- No field of the register-amount form holds bit 7. -/
theorem dpFieldsOf_flip (c : Cond) {w : Word} (h25 : w.getLsbD 25 = false) (h4 : w.getLsbD 4 = true) :
    dpFieldsOf c (w ^^^ 0x80#32) = dpFieldsOf c w := by
  have f25 := (getLsbD_flip_of_ne w (j := 25) (by decide)).trans h25
  have f4 := (getLsbD_flip_of_ne w (j := 4) (by decide)).trans h4
  have hfield {lo : Nat} (h : 7 < lo ∨ lo + 4 ≤ 7) : regField (w ^^^ 0x80#32) lo = regField w lo :=
    congrArg BitVec.toFin (extractLsb'_flip w h)
  rw [dpFieldsOf, dpFieldsOf, decodeOperand2_regReg f25 f4, decodeOperand2_regReg h25 h4, getLsbD_flip_of_ne w (by decide),
    hfield (by decide), hfield (by decide), hfield (by decide), hfield (by decide), extractLsb'_flip w (by decide)]

/-- Encoding the fields of a data-processing word gives it back, or the same word with the ignored bit 7 clear. The word
that the encoder must avoid, BX's (log 9), is no data-processing word, so then bit 7 of `w` is set. -/
theorem encodeDP_dpFieldsOf {w : Word} {c : Cond} (hc : c.code = w.extractLsb' 28 4) (hcls : w.extractLsb' 26 2 = 0b00#2)
    (hbx : w.extractLsb' 4 24 ≠ bxPattern) :
    encodeDP (w.extractLsb' 21 4) (dpFieldsOf c w) = w ∨
      (encodeDP (w.extractLsb' 21 4) (dpFieldsOf c w) = w ^^^ 0x80#32 ∧ w.getLsbD 25 = false ∧ w.getLsbD 4 = true) := by
  by_cases h : w.getLsbD 25 = true ∨ w.getLsbD 4 = false ∨ w.getLsbD 7 = false
  · have hcan := canonicalDP_dpFieldsOf hc hcls h
    rw [encodeDP, hcan, if_neg hbx]
    exact .inl rfl
  · obtain ⟨h25, h4, h7⟩ : w.getLsbD 25 = false ∧ w.getLsbD 4 = true ∧ w.getLsbD 7 = true := by simpa using h
    have f7 : (w ^^^ 0x80#32).getLsbD 7 = false := by rw [getLsbD_flip, h7]; rfl
    have hcan := canonicalDP_dpFieldsOf (w := w ^^^ 0x80#32) (c := c) (by rw [hc, extractLsb'_flip w (by decide)])
      (by rw [extractLsb'_flip w (by decide), hcls]) (.inr (.inr f7))
    rw [extractLsb'_flip w (by decide), dpFieldsOf_flip c h25 h4] at hcan
    rw [encodeDP, hcan]
    split
    · exact .inl (flip_or h7)
    · exact .inr ⟨rfl, h25, h4⟩

/-- The fields of a branch word, put together again (R82). -/
theorem encodeBranch_of_decode {w : Word} {c : Cond} (hc : c.code = w.extractLsb' 28 4)
    (hcls : w.extractLsb' 25 3 = 0b101#3) : encode (decodeBranch c w).instr = w := by
  have hlink : encode (decodeBranch c w).instr =
      encodeBranch c (w.extractLsb' 24 1) (branchOffset (w.extractLsb' 0 24)) := by
    rw [field_one, decodeBranch]
    cases w.getLsbD 24 <;> rfl
  rw [hlink, encodeBranch, hc, ← hcls, branchOffset_field]
  simp (disch := rfl) only [BitVec.extractLsb'_append_extractLsb'_eq_extractLsb']
  exact BitVec.extractLsb'_eq_self

theorem encodeBranchExchange_of_decode {w : Word} {c : Cond} (hc : c.code = w.extractLsb' 28 4)
    (hbx : w.extractLsb' 4 24 = bxPattern) : encode (decodeBranchExchange c w).instr = w := by
  rw [decodeBranchExchange, encode, encodeBranchExchange, hc, ← hbx, regBits_regField]
  simp (disch := rfl) only [BitVec.extractLsb'_append_extractLsb'_eq_extractLsb']
  exact BitVec.extractLsb'_eq_self

/-- Settles O19, by the class of the word: a branch or a BX is its fields, a data-processing word but for bit 7. -/
theorem encodeOfDecodeIsTheWordUpToBitSeven : Obligations.EncodeOfDecodeIsTheWordUpToBitSeven := by
  intro w i h
  obtain ⟨c, hc, ⟨hbx, rfl⟩ | ⟨hcls, rfl⟩ | ⟨hbx, hcls, rfl⟩⟩ := decodeWord_cases h
  · exact .inl (encodeBranchExchange_of_decode hc hbx)
  · exact .inl (encodeBranch_of_decode hc hcls)
  · rw [decodeDataProcessing_instr, encode_ofOpcode]
    refine (encodeDP_dpFieldsOf hc hcls hbx).imp_right fun ⟨he, h25, h4⟩ => ⟨he, ?_, h4⟩
    have hsplit : w.extractLsb' 26 2 ++ w.extractLsb' 25 1 = w.extractLsb' 25 3 :=
      BitVec.extractLsb'_append_extractLsb'_eq_extractLsb' rfl
    rw [← hsplit, hcls, field_one, h25]
    rfl

end Sys2Proof.Machine
end

section
/-!
PROOFS of what the decoder answers: the words that are instructions (R72, R93), the fields of operand 2 (R77), the ignored
bit 7 (R79), BX's pattern (R87), well-formedness (R201), and the words the spec writes out.
-/
namespace Sys2Proof.Machine

/-! ### Which words are instructions -/

theorem decodeWord_undefinedCondition {w : Word} (h : w.extractLsb' 28 4 = 0b1111#4) :
    decodeWord w = .error .undefinedCondition := by
  simp only [decodeWord, classify, ofCode_eq_none.mpr h]

theorem exists_code_iff {x : BitVec 4} : (∃ c : Cond, c.code = x) ↔ x ≠ 0b1111#4 := by
  rw [ne_eq, ← ofCode_eq_none, ← ne_eq, Option.ne_none_iff_exists']
  exact exists_congr fun c => ofCode_eq_some.symm

/-- The three class bits, as the two of R72's first test and bit 25. -/
theorem class_bits (w : Word) : w.extractLsb' 26 2 ++ w.extractLsb' 25 1 = w.extractLsb' 25 3 :=
  BitVec.extractLsb'_append_extractLsb'_eq_extractLsb' rfl

theorem class_zero_iff (w : Word) :
    w.extractLsb' 25 3 = 0b000#3 ↔ w.extractLsb' 26 2 = 0b00#2 ∧ w.getLsbD 25 = false := by
  rw [← class_bits, field_one]
  generalize w.extractLsb' 26 2 = hi
  generalize w.getLsbD 25 = lo
  revert hi lo
  decide

/-- BX's pattern lies in class 00 (R87). -/
theorem class_of_bxPattern {w : Word} (h : w.extractLsb' 4 24 = bxPattern) : w.extractLsb' 26 2 = 0b00#2 := by
  have hsplit : w.extractLsb' 26 2 ++ w.extractLsb' 4 22 = w.extractLsb' 4 24 :=
    BitVec.extractLsb'_append_extractLsb'_eq_extractLsb' rfl
  calc w.extractLsb' 26 2
      = (w.extractLsb' 26 2 ++ w.extractLsb' 4 22).extractLsb' 22 2 := BitVec.extractLsb'_append_eq_left.symm
    _ = bxPattern.extractLsb' 22 2 := by rw [hsplit, h]
    _ = 0b00#2 := by decide

/-- R72's tests, read as a condition on the word: its condition is defined and its class is 00 or 101. -/
theorem exists_decodeWord_iff (w : Word) : (∃ i, decodeWord w = .ok i) ↔
    (w.extractLsb' 28 4 ≠ 0b1111#4 ∧ (w.extractLsb' 26 2 = 0b00#2 ∨ w.extractLsb' 25 3 = 0b101#3)) := by
  constructor
  · rintro ⟨i, h⟩
    obtain ⟨c, hc, h⟩ := decodeWord_cases h
    refine ⟨exists_code_iff.mp ⟨c, hc⟩, ?_⟩
    obtain ⟨hbx, -⟩ | ⟨hcls, -⟩ | ⟨-, hcls, -⟩ := h
    · exact .inl (class_of_bxPattern hbx)
    · exact .inr hcls
    · exact .inl hcls
  · rintro ⟨hcode, hcls | hcls⟩ <;> obtain ⟨c, hc⟩ := exists_code_iff.mpr hcode
    · by_cases hbx : w.extractLsb' 4 24 = bxPattern
      · exact ⟨_, decodeWord_branchExchange hc hbx⟩
      · exact ⟨_, decodeWord_dataProcessing hc hcls hbx⟩
    · exact ⟨_, decodeWord_branch hc hcls⟩

/-- Settles O16: every word of a decoded class has a decoder, and no other word has. -/
theorem instructionWordsArePartitioned : Obligations.InstructionWordsArePartitioned := exists_decodeWord_iff

/-- Settles O14: the pattern test comes first (R72). -/
theorem bxPatternIsNeverDataProcessing : Obligations.BxPatternIsNeverDataProcessing := fun w _ hc hbx =>
  ⟨regField w 0, decodeWord_branchExchange hc hbx, regField_val w 0⟩

/-! ### Well-formedness -/

theorem wf_of_decodeWord {w : Word} {i : Instr} (h : decodeWord w = .ok i) : i.wf = true := by
  obtain ⟨c, -, ⟨-, rfl⟩ | ⟨-, rfl⟩ | ⟨-, -, rfl⟩⟩ := decodeWord_cases h
  · rfl
  · rw [decodeBranch]
    split <;> exact branchOffset_wf _
  · exact wf_ofOpcode _ _

/-- Settles O20: the only check of `wf` is the branch offset's. -/
theorem decodedInstructionsAreWellFormed : Obligations.DecodedInstructionsAreWellFormed := fun _ _ h =>
  ⟨wf_of_decodeWord h, classify_of_decodeWord h⟩

/-! ### The register forms of operand 2 -/

/-- Settles O13, by bit 4. -/
theorem registerOperandFieldsAreTheWordsBits : Obligations.RegisterOperandFieldsAreTheWordsBits := by
  intro w i d h hd h25
  obtain ⟨-, c, -, rfl⟩ := dpFields_of_decodeWord h hd
  exact ⟨fun h4 => ⟨_, _, decodeOperand2_regImm h25 h4, regField_val w 0, shiftCode_ofCode _⟩,
    fun h4 => ⟨_, _, _, decodeOperand2_regReg h25 h4, regField_val w 0, shiftCode_ofCode _, regField_val w 8⟩⟩

/-- Settles O15: both words have the same condition and class, and no field of the form holds bit 7. -/
theorem bitSevenOfRegisterAmountFormIsIgnored : Obligations.BitSevenOfRegisterAmountFormIsIgnored := by
  intro w hcls3 h4 hbx hbx'
  obtain ⟨hcls, h25⟩ := (class_zero_iff w).mp hcls3
  have hcode := extractLsb'_flip w (lo := 28) (len := 4) (by decide)
  by_cases hcond : w.extractLsb' 28 4 = 0b1111#4
  · rw [decodeWord_undefinedCondition hcond, decodeWord_undefinedCondition (hcode.trans hcond)]
  · obtain ⟨c, hc⟩ := exists_code_iff.mpr hcond
    have hcls' := (extractLsb'_flip w (lo := 26) (len := 2) (by decide)).trans hcls
    rw [decodeWord_dataProcessing hc hcls hbx, decodeWord_dataProcessing (hc.trans hcode.symm) hcls' hbx',
      decodeDataProcessing_instr, decodeDataProcessing_instr, extractLsb'_flip w (by decide), dpFieldsOf_flip c h25 h4]

/-! ### Words built field by field -/

/-- The word of R90 is the one the encoder builds for the no-shift register form. -/
theorem registerForm_eq_canonicalDP (op ra rd rb : BitVec 4) :
    0xE0000000#32 ||| (op.setWidth 32 <<< 21) ||| (ra.setWidth 32 <<< 16) ||| (rd.setWidth 32 <<< 12) ||| rb.setWidth 32 =
      canonicalDP op { cond := .al, s := false, rn := ra.toFin, rd := rd.toFin, op2 := .regImm rb.toFin .lsl 0#5 } := by
  apply BitVec.eq_of_getLsbD_eq
  intro j hj
  simp only [canonicalDP, encodeOperand2, Operand2.immediateBit, Cond.code, ShiftType.code, regBits,
    BitVec.getLsbD_append, BitVec.getLsbD_or]
  interval_cases j <;> simp

/-- Settles O17: the word is the encoder's, so it decodes as every encoded word does. -/
theorem registerFormRoundTrips : Obligations.RegisterFormRoundTrips := by
  intro op ra rd rb
  rw [registerForm_eq_canonicalDP, ← encodeDP_eq_canonicalDP (.inr (canonicalDP_regImm_bit4 op rfl)), decodeWord_encodeDP]

/-- Settles O11: the decoder, run on the eight words. -/
theorem specWordsDecodeAsTabulated : Obligations.SpecWordsDecodeAsTabulated := by
  unfold Obligations.SpecWordsDecodeAsTabulated
  decide

end Sys2Proof.Machine
end

section
/-!
PROOFS about steps and runs. A step of a running core is the completion of one effect, and the step result is that effect's
(`stepEffect`); so what a step can do is what `commit` can do with it. Runs are by one induction (`run_induction`).
-/
namespace Sys2Proof.Machine

/-! ### The effect of a step -/

/-- What a step of a running core hands to the PC unit: the raise of a failed fetch or classification, or the effect of the
decoded instruction (R238). -/
def stepEffect (s : State) : Effect :=
  match fetchDecode s with
  | .error cause => .raise s cause
  | .ok d => effectOf d.instr s

theorem stepEffect_of_error {s : State} {c : Cause} (h : fetchDecode s = .error c) : stepEffect s = .raise s c := by
  simp only [stepEffect, h]

theorem stepEffect_of_ok {s : State} {d : Decoded} (h : fetchDecode s = .ok d) : stepEffect s = effectOf d.instr s := by
  simp only [stepEffect, h]

/-- The ways a step's effect comes about. -/
theorem stepEffect_cases (s : State) :
    (∃ c, fetchDecode s = .error c ∧ stepEffect s = .raise s c) ∨
      ∃ w i, fetchDecode s = .ok ⟨w, i⟩ ∧ stepEffect s = effectOf i s := by
  cases h : fetchDecode s with
  | error c => exact .inl ⟨c, rfl, stepEffect_of_error h⟩
  | ok d => exact .inr ⟨d.raw, d.instr, rfl, stepEffect_of_ok h⟩

theorem step_eq_commit {s : State} (hr : s.run = .running) : step s = .next (commit s (stepEffect s)) := by
  obtain ⟨c, h, he⟩ | ⟨w, i, h, he⟩ := stepEffect_cases s
  · rw [step_of_fetchDecode_error hr h, he, commit_raise]
  · rw [step_of_fetchDecode_ok hr h, he]

theorem stepResult_eq {s : State} (hr : s.run = .running) : stepResult s = some (stepEffect s).result := by
  cases h : fetchDecode s with
  | error c => simp only [stepResult, hr, h, stepEffect]
  | ok d => simp only [stepResult, hr, h, stepEffect]

theorem stepResult_of_faulted {s : State} {c : Cause} (h : s.run = .faulted c) : stepResult s = none := by
  simp only [stepResult, h]

theorem step_next_iff {s t : State} : step s = .next t ↔ s.run = .running ∧ t = commit s (stepEffect s) := by
  cases hr : s.run with
  | running => simp [step_eq_commit hr, eq_comm]
  | faulted c => simp [step_of_faulted hr]

theorem stepResult_some_iff {s : State} {r : ExecResult} :
    stepResult s = some r ↔ s.run = .running ∧ r = (stepEffect s).result := by
  cases hr : s.run with
  | running => simp [stepResult_eq hr, eq_comm]
  | faulted c => simp [stepResult_of_faulted hr]

/-- No step touches the memory, the latch or T before the PC unit. -/
theorem stepEffect_frame (s : State) :
    (stepEffect s).state.mem = s.mem ∧ (stepEffect s).state.run = s.run ∧ (stepEffect s).state.flags.t = s.flags.t := by
  obtain ⟨c, -, he⟩ | ⟨w, i, -, he⟩ := stepEffect_cases s
  · rw [he]; exact ⟨rfl, rfl, rfl⟩
  · rw [he]; exact effectOf_frame i s

/-- The fatal errors of a step, each with its place (R52, R72, R205, R206); the effect is then the bare raise. -/
theorem stepEffect_fatal {s : State} {c : Cause} (h : (stepEffect s).result.errorCode = .fatal c) :
    stepEffect s = .raise s c ∧ (fetchDecode s = .error c ∨ c = .bxPcOperand ∨ c = .unsupportedMode) := by
  obtain ⟨c', hfd, he⟩ | ⟨w, i, hfd, he⟩ := stepEffect_cases s
  · rw [he] at h
    cases h
    exact ⟨he, .inl hfd⟩
  · rw [he] at h
    obtain ⟨k, rm, -, hraise, ⟨-, hc⟩ | ⟨-, -, -, hc⟩⟩ := effectOf_fatal h
    · exact ⟨he.trans hraise, .inr (.inl hc)⟩
    · exact ⟨he.trans hraise, .inr (.inr hc)⟩

/-! ### The latch after a step -/

theorem commit_of_fatal {s : State} {e : Effect} {c : Cause} (h : e.result.errorCode = .fatal c) :
    commit s e = raiseFatal s c := by
  simp only [commit, h]

/-- A running core is faulted by a step exactly when the step's effect carries the fatal code (R224). -/
theorem commit_stepEffect_run {s : State} (hr : s.run = .running) (c : Cause) :
    (commit s (stepEffect s)).run = .faulted c ↔ (stepEffect s).result.errorCode = .fatal c := by
  obtain ⟨c', hc', h⟩ | ⟨hnot, h⟩ := commit_cases s (stepEffect s)
  · simp [h, hc']
  · simp [h, (stepEffect_frame s).2.1, hr, hnot]

theorem step_eq_raiseFatal_iff {s : State} (hr : s.run = .running) (c : Cause) :
    step s = .next (raiseFatal s c) ↔ (stepEffect s).result.errorCode = .fatal c := by
  rw [← commit_stepEffect_run hr, step_eq_commit hr, Host.Outcome.next.injEq]
  constructor
  · intro h
    rw [h, raiseFatal_run]
  · intro h
    rw [commit_of_fatal ((commit_stepEffect_run hr c).mp h)]

/-- Settles O4: a fatal code leaves the start state with the latch set, and nothing but a fatal code sets the latch. -/
theorem fatalStepChangesOnlyTheLatch : Obligations.FatalStepChangesOnlyTheLatch := by
  intro s t c h hc
  obtain ⟨hr, rfl⟩ := step_next_iff.mp h
  rw [commit_of_fatal ((commit_stepEffect_run hr c).mp hc)]
  exact ⟨fun _ => rfl, rfl, rfl, rfl⟩

/-- Settles O52: no cause of a fetch, a classification or a BX is InvalidRegisterIndex. -/
theorem invalidRegisterIndexIsNeverRaised : Obligations.InvalidRegisterIndexIsNeverRaised := by
  intro s t h hc
  obtain ⟨hr, rfl⟩ := step_next_iff.mp h
  obtain ⟨-, hfd | hc | hc⟩ := stepEffect_fatal ((commit_stepEffect_run hr _).mp hc)
  · obtain ⟨-, hc⟩ | ⟨_, _, -, -, hc⟩ := fetchDecode_error hfd <;> cases hc
  · cases hc
  · cases hc

/-! ### The two errors before execution -/

/-- A cause that BX does not raise is raised by the fetch or the classification. -/
theorem step_eq_raiseFatal_iff_fetchDecode {s : State} (hr : s.run = .running) {c : Cause} (hpc : c ≠ .bxPcOperand)
    (hmode : c ≠ .unsupportedMode) : step s = .next (raiseFatal s c) ↔ fetchDecode s = .error c := by
  rw [step_eq_raiseFatal_iff hr]
  constructor
  · intro h
    obtain ⟨-, hfd | hc | hc⟩ := stepEffect_fatal h
    · exact hfd
    · exact absurd hc hpc
    · exact absurd hc hmode
  · intro h
    rw [stepEffect_of_error h]
    rfl

theorem fetchDecode_eq_fetchFault_iff (s : State) : fetchDecode s = .error .fetchFault ↔ fetchWord s = none := by
  constructor
  · intro h
    obtain ⟨hw, -⟩ | ⟨_, _, -, -, hc⟩ := fetchDecode_error h
    · exact hw
    · cases hc
  · intro h
    simp only [fetchDecode, h]

theorem fetchDecode_eq_unknownOperation_iff {s : State} {w : Word} (hw : fetchWord s = some w) :
    fetchDecode s = .error .unknownOperation ↔ ¬ ∃ i, decodeWord w = .ok i := by
  constructor
  · rintro h ⟨i, hi⟩
    rw [fetchDecode_of_decodeWord hw hi] at h
    cases h
  · intro h
    cases hd : decodeWord w with
    | ok i => exact absurd ⟨i, hd⟩ h
    | error e => simp only [fetchDecode, hw, decodeWord_eq_error.mp hd]

/-- Settles O6: the fetch has no other test than the two. -/
theorem fetchFaultExactlyWhenMisalignedOrOutOfBounds : Obligations.FetchFaultExactlyWhenMisalignedOrOutOfBounds := by
  intro s hr
  rw [show ({ s with run := .faulted .fetchFault } : State) = raiseFatal s .fetchFault from rfl,
    step_eq_raiseFatal_iff_fetchDecode hr (by decide) (by decide), fetchDecode_eq_fetchFault_iff, fetchWord_eq]
  split
  case isTrue => exact iff_of_false nofun (by omega)
  case isFalse => exact iff_of_true rfl (by omega)

/-- Settles O8: the words that are no instructions (R93), sorted by condition and space. -/
theorem unknownOperationExactlyOnNonInstructions : Obligations.UnknownOperationExactlyOnNonInstructions := by
  intro s w hr hw
  rw [show ({ s with run := .faulted .unknownOperation } : State) = raiseFatal s .unknownOperation from rfl,
    step_eq_raiseFatal_iff_fetchDecode hr (by decide) (by decide), fetchDecode_eq_unknownOperation_iff hw,
    exists_decodeWord_iff, ← class_bits]
  by_cases hcode : w.extractLsb' 28 4 = 0b1111#4
  · simp [hcode]
  · simp only [hcode, ne_eq, not_false_eq_true, true_and, false_or]
    generalize w.extractLsb' 26 2 = hi
    generalize w.extractLsb' 25 1 = lo
    revert hi lo
    decide

theorem fetchWord_of_fetchable {s : State} (h : Fetchable s) :
    fetchWord s = some (wordOfBytes (s.mem.byteAt s.pc.toNat) (s.mem.byteAt (s.pc.toNat + 1))
      (s.mem.byteAt (s.pc.toNat + 2)) (s.mem.byteAt (s.pc.toNat + 3))) := (fetchWord_eq s).trans (if_pos h)

theorem decodeWord_of_decode {b0 b1 b2 b3 : Byte} {i : Instr} (h : decode [b0, b1, b2, b3] = .ok (i, [])) :
    decodeWord (wordOfBytes b0 b1 b2 b3) = .ok i := by
  rw [decode] at h
  split at h
  · rename_i j hj
    cases h
    exact hj
  · cases h

/-- Settles O7: the four bytes are the fetched word (R53), and a step completes the effect of its instruction. -/
theorem stepExecutesTheInstructionAtThePc : Obligations.StepExecutesTheInstructionAtThePc := by
  intro s i hr hs hdec
  have hfd := fetchDecode_of_decodeWord (fetchWord_of_fetchable hs) (decodeWord_of_decode hdec)
  rw [step_of_fetchDecode_ok hr hfd, exec_eq]

/-! ### What the step result says -/

theorem executeDP_nextPc (d : DPFields) (s : State) (o : AluOut) : (executeDP d s o).result.nextPc = s.pc + 4#32 := by
  cases h : condPassed d.cond s.flags with
  | false => rw [executeDP_failed o h]; rfl
  | true => rw [executeDP_passed o h]

theorem executeDP_neverHalts (d : DPFields) (s : State) (o : AluOut) : (executeDP d s o).result.shouldHalt = false := by
  cases h : condPassed d.cond s.flags with
  | false => rw [executeDP_failed o h]; rfl
  | true => rw [executeDP_passed o h]

theorem effectOf_neverHalts (i : Instr) (s : State) : (effectOf i s).result.shouldHalt = false := by
  cases i with
  | b c o => simp only [effectOf, effectB]; split <;> rfl
  | bl c o => simp only [effectOf, effectBl]; split <;> rfl
  | bx c r => simp only [effectOf, effectBx]; split <;> [skip; split <;> [split; skip]] <;> rfl
  | _ d => exact executeDP_neverHalts d s _

theorem stepEffect_neverHalts (s : State) : (stepEffect s).result.shouldHalt = false := by
  obtain ⟨c, -, he⟩ | ⟨w, i, -, he⟩ := stepEffect_cases s
  · rw [he]; rfl
  · rw [he]; exact effectOf_neverHalts i s

/-- Settles O51: a result and a step exist for the running core alone. -/
theorem noStepResultHalts : Obligations.NoStepResultHalts := by
  intro s
  refine ⟨fun r h => ?_, ?_, ?_⟩
  · rw [(stepResult_some_iff.mp h).2]
    exact stepEffect_neverHalts s
  · simp only [stepResult_some_iff, exists_and_left, exists_eq, and_true]
  · simp only [stepResult_some_iff, step_next_iff, exists_and_left, exists_eq]

/-- Settles O49: the next state and the result come from one effect. -/
theorem stepResultAgreesWithTheNextState : Obligations.StepResultAgreesWithTheNextState := by
  intro s t r h hres
  obtain ⟨hr, rfl⟩ := step_next_iff.mp h
  obtain ⟨-, rfl⟩ := stepResult_some_iff.mp hres
  have hlatch := commit_stepEffect_run hr
  refine ⟨?_, hlatch, fun c hc => ?_⟩
  · rintro ⟨-, hrun⟩
    obtain ⟨c, hc, -⟩ | ⟨hnot, h⟩ := commit_cases s (stepEffect s)
    · rw [(hlatch c).mpr hc] at hrun
      cases hrun
    · refine ⟨by rw [h, pc_setReg_pc], ?_⟩
      cases hcode : (stepEffect s).result.errorCode with
      | none => exact .inl rfl
      | pcUsedAsOperand => exact .inr rfl
      | fatal c => exact absurd hcode (hnot c)
  · rw [(stepEffect_fatal ((hlatch c).mp hc)).1]
    rfl

/-! ### The invariant -/

/-- A data-processing instruction's effect is the shared executor's, of an ALU output (R160). Only a result-writing
operation writes Rd, it writes flags as its S bit says, and a logical one keeps C and V. -/
theorem effectOf_dp {i : Instr} {d : DPFields} (h : dpFields? i = some d) (s : State) :
    ∃ o, effectOf i s = executeDP d s o ∧ (o.writesRd = true → resultFields? i = some d) ∧
      (resultFields? i = some d → o.writesFlags = d.s) ∧
      (isLogical i = true → o.flags.c = s.flags.c ∧ o.flags.v = s.flags.v) :=
  match i, h with
  | .and _, rfl | .eor _, rfl | .orr _, rfl | .bic _, rfl | .mov _, rfl | .mvn _, rfl =>
    ⟨_, rfl, fun _ => rfl, fun _ => rfl, fun _ => ⟨rfl, rfl⟩⟩
  | .add _, rfl | .sub _, rfl | .rsb _, rfl | .adc _, rfl | .sbc _, rfl | .rsc _, rfl =>
    ⟨_, rfl, fun _ => rfl, fun _ => rfl, nofun⟩
  | .tst _, rfl | .teq _, rfl => ⟨_, rfl, nofun, nofun, fun _ => ⟨rfl, rfl⟩⟩
  | .cmp _, rfl | .cmn _, rfl => ⟨_, rfl, nofun, nofun, nofun⟩

theorem effectOf_dp_nextPc {i : Instr} {d : DPFields} (h : dpFields? i = some d) (s : State) :
    (effectOf i s).result.nextPc = s.pc + 4#32 := by
  obtain ⟨o, he, -⟩ := effectOf_dp h s
  rw [he, executeDP_nextPc]

/-- From an aligned PC, every decoded instruction gives an aligned next PC (R208). -/
theorem effectOf_nextPc_aligned {w : Word} {i : Instr} {s : State} (h : decodeWord w = .ok i) (hs : s.pc.toNat % 4 = 0) :
    (effectOf i s).result.nextPc.toNat % 4 = 0 := by
  cases hdp : dpFields? i with
  | some d => rw [effectOf_dp_nextPc hdp]; exact nextInstruction_aligned hs
  | none =>
    obtain ⟨c, rm, rfl⟩ | ⟨c, offset, ho, rfl | rfl⟩ := decodeWord_branch_cases h hdp
    · exact effectBx_nextPc_aligned c rm hs
    · exact takenOrSkip_nextPc_aligned _ hs (add_aligned hs ho)
    · exact takenOrSkip_nextPc_aligned _ hs (add_aligned hs ho)

theorem stepEffect_nextPc_aligned {s : State} (hs : s.pc.toNat % 4 = 0) :
    (stepEffect s).result.nextPc.toNat % 4 = 0 := by
  obtain ⟨c, -, he⟩ | ⟨w, i, hfd, he⟩ := stepEffect_cases s
  · rw [he]; exact nextInstruction_aligned hs
  · rw [he]; exact effectOf_nextPc_aligned (fetchDecode_ok hfd).2 hs

/-- Completing an effect keeps T if the executor does. -/
theorem commit_flags_t {s : State} {e : Effect} (h : e.state.flags.t = s.flags.t) :
    (commit s e).flags.t = s.flags.t := by
  obtain ⟨c, -, hcommit⟩ | ⟨-, hcommit⟩ := commit_cases s e
  · rw [hcommit, raiseFatal_flags]
  · rw [hcommit, setReg_flags, h]

/-- Settles O58, part by part of the invariant: a step writes no memory (R55) and no T (R26), and every next PC is
aligned. -/
theorem everyStepKeepsTheInvariant : Obligations.EveryStepKeepsTheInvariant := by
  intro s t ⟨hmem, ht, hpc⟩ h
  have hsame := step_mem h
  obtain ⟨-, rfl⟩ := step_next_iff.mp h
  obtain ⟨-, -, hkeepT⟩ := stepEffect_frame s
  exact ⟨hsame ▸ hmem, (commit_flags_t hkeepT).trans ht, commit_pc_aligned hpc (stepEffect_nextPc_aligned hpc)⟩

/-! ### Runs -/

theorem step_ne_refused (s : State) (r : Refusal) : step s ≠ .refused r := by
  cases hr : s.run with
  | running => rw [step_eq_commit hr]; nofun
  | faulted c => rw [step_of_faulted hr]; nofun

/-- What every step keeps, every run keeps. -/
theorem run_induction {P : State → Prop} (hstep : ∀ s t, P s → step s = .next t → P t) (n : Nat) {s t : State}
    (hs : P s) (h : Sys2Proof.core.run n s = .next t) : P t := by
  induction n generalizing s with
  | zero => rw [run_zero] at h; cases h; exact hs
  | succ n ih =>
    cases hr : s.run with
    | running =>
      have hnext := step_eq_commit hr
      rw [run_succ_next n hnext] at h
      exact ih (hstep _ _ hs hnext) h
    | faulted c => rw [run_succ_fault n (step_of_faulted hr)] at h; cases h

theorem run_ne_refused (n : Nat) (s : State) (r : Refusal) : Sys2Proof.core.run n s ≠ .refused r := by
  induction n generalizing s with
  | zero => nofun
  | succ n ih =>
    cases hr : s.run with
    | running => rw [run_succ_next n (step_eq_commit hr)]; exact ih _
    | faulted c => rw [run_succ_fault n (step_of_faulted hr)]; nofun

/-- A state that steps to itself is what any run from it ends in. -/
theorem run_of_fixedPoint {s : State} (h : step s = .next s) (n : Nat) : Sys2Proof.core.run n s = .next s := by
  induction n with
  | zero => rfl
  | succ n ih => rw [run_succ_next n h, ih]

/-- Settles O3: the first step of a faulted core stops the run. -/
theorem faultedCoreTakesNoStep : Obligations.FaultedCoreTakesNoStep :=
  ⟨fun _ _ n h => run_succ_fault n (step_of_faulted h), fun _ _ h => step_fault_cases h, step_ne_refused⟩

/-- Settles O53: the memory of the start state is kept by every step (R55). -/
theorem memoryIsConstantAlongEveryRun : Obligations.MemoryIsConstantAlongEveryRun := by
  intro n s t h
  have hmem : t.mem = s.mem := run_induction (P := (·.mem = s.mem)) (fun _ _ hs h => (step_mem h).trans hs) n rfl h
  exact ⟨hmem, fun _ => by rw [hmem]⟩

/-- Settles O59: the step lemma of the invariant, along the run. -/
theorem runsKeepTheInvariantAndNeverRefuse : Obligations.RunsKeepTheInvariantAndNeverRefuse := fun n s hs =>
  ⟨fun _ h => ⟨run_induction everyStepKeepsTheInvariant n hs h, step_of_running⟩, run_ne_refused n s⟩

/-- Settles O48: the branch writes the PC it already has. -/
theorem branchToSelfIsAFixedPoint : Obligations.BranchToSelfIsAFixedPoint := by
  intro s c w n hr hw hdec hc
  have hstep : step s = .next s := by
    rw [step_of_fetchDecode_ok hr (fetchDecode_of_decodeWord hw hdec), effectOf_b_passed _ hc, commit_taken,
      BitVec.add_zero, setReg_pc_self]
  exact ⟨hstep, run_of_fixedPoint hstep n⟩

/-! ### Reset -/

/-- Settles O1, by the reset state's fields. -/
theorem resetStateIsZeroAndRunning : Obligations.ResetStateIsZeroAndRunning := ⟨reset_reg, rfl, rfl, rfl⟩

/-- Settles O57: the empty memory is canonical, and 0 is aligned. -/
theorem invariantHoldsAtReset : Obligations.InvariantHoldsAtReset :=
  ⟨⟨reset_mem_wf, rfl, by rw [reset_pc]; rfl⟩, rfl, rfl⟩

/-- Settles O2: reset is the reset state with the memory kept. -/
theorem resetInputRestoresResetStateAndKeepsMemory : Obligations.ResetInputRestoresResetStateAndKeepsMemory := fun s =>
  ⟨fun k => (resetInput_reg s k).trans (reset_reg k), rfl, rfl, rfl, fun ⟨hmem, _, _⟩ => ⟨hmem, rfl, by
    rw [State.pc, resetInput_reg, reset_reg]; rfl⟩⟩

/-! ### The loader -/

/-- Reading after the loader wrote bytes inside the memory: a written address reads its byte, every other as before. -/
theorem byteAt_writeBytes (l : List Byte) {m : Memory} {a : Nat} (h : m.wf = true) (ha : a + l.length ≤ m.size) (x : Nat) :
    (m.writeBytes a l).byteAt x = if a ≤ x then l.getD (x - a) (m.byteAt x) else m.byteAt x := by
  induction l generalizing m a with
  | nil => simp [Memory.writeBytes]
  | cons v l ih =>
    rw [List.length_cons] at ha
    have hin : a < m.size := by omega
    rw [Memory.writeBytes, ih (wf_writeByte m a v h) (by rw [writeByte_size]; omega), byteAt_writeByte m a v x h hin]
    obtain hx | rfl | hx := Nat.lt_trichotomy x a
    · rw [if_neg (by omega), if_neg (by omega), if_neg (by omega)]
    · rw [if_neg (by omega), if_pos rfl, if_pos le_rfl, Nat.sub_self, List.getD_cons_zero]
    · have hnext : x - a = x - (a + 1) + 1 := by omega
      rw [if_pos (by omega), if_neg (by omega), if_pos (by omega), hnext, List.getD_cons_succ]

/-- Reading after the loader wrote a word inside the memory: byte `k` of the word at `a + k`. -/
theorem byteAt_writeWord {m : Memory} {a : Nat} (w : Word) (h : m.wf = true) (ha : a + 4 ≤ m.size) (k : Nat) :
    (m.writeWord a w).byteAt (a + k) = (bytesOfWord w).getD k (m.byteAt (a + k)) := by
  rw [Memory.writeWord, byteAt_writeBytes _ h ha, if_pos (Nat.le_add_right a k), Nat.add_sub_cancel_left]

theorem byteAt_writeWord_outside {m : Memory} {a : Nat} (w : Word) (h : m.wf = true) (ha : a + 4 ≤ m.size) {x : Nat}
    (hx : x < a ∨ a + 4 ≤ x) : (m.writeWord a w).byteAt x = m.byteAt x := by
  rw [Memory.writeWord, byteAt_writeBytes _ h ha]
  split
  · exact List.getD_eq_default _ _ (show 4 ≤ x - a by omega)
  · rfl

@[simp] theorem writeWord_size (m : Memory) (a : Nat) (w : Word) : (m.writeWord a w).size = m.size :=
  writeBytes_size m a _

theorem withFetchWord_eq (s : State) (w : Nat) :
    s.withFetchWord 32 w = s.setMem (s.mem.writeWord s.pc.toNat (BitVec.ofNat 32 w)) := by
  have hword : tableWord 32 w = BitVec.ofNat 32 w := by
    apply BitVec.eq_of_toNat_eq
    simp [tableWord]
  rw [State.withFetchWord, loadAtPc, hword]

/-- Settles O10: the four bytes read back are the word's (R53), and the loader's write keeps the memory canonical. -/
theorem placedWordIsTheOneFetched : Obligations.PlacedWordIsTheOneFetched := by
  intro s w ⟨hmem, ht, hpc⟩ hin
  rw [withFetchWord_eq]
  have hread := byteAt_writeWord (BitVec.ofNat 32 w) hmem hin
  refine ⟨?_, ⟨wf_writeWord _ _ _ hmem, ht, hpc⟩, fun a ha => byteAt_writeWord_outside _ hmem hin ha⟩
  have hfetch : Fetchable (s.setMem (s.mem.writeWord s.pc.toNat (BitVec.ofNat 32 w))) :=
    ⟨hpc, by rw [setMem_mem, setMem_pc, writeWord_size]; exact hin⟩
  have hread0 := hread 0
  rw [Nat.add_zero] at hread0
  rw [fetchWord_of_fetchable hfetch, setMem_mem, setMem_pc, hread0, hread, hread, hread]
  exact congrArg some (wordOfBytes_bytes _)

end Sys2Proof.Machine
end

section
/-!
PROOFS of the data-processing instructions (R160 to R183). The executor's rules say once what completing it does to each part
of the state; the four shapes of an operation (result or compare, logical or arithmetic) follow, and each instruction is its
shape by definition. Flags are turned into the document's own properties by one lemma per flag rule.
-/
namespace Sys2Proof.Machine

/-! ### Completing the executor, one rule per part of the state -/

theorem commit_executeDP_pc (d : DPFields) (s : State) (o : AluOut) :
    (commit s (executeDP d s o)).pc = s.pc + 4#32 := by
  cases h : condPassed d.cond s.flags with
  | false => rw [executeDP_failed o h, commit_skip, pc_setReg_pc]
  | true => rw [commit_executeDP o h, pc_setReg_pc]

theorem commit_executeDP_flags (d : DPFields) (s : State) (o : AluOut) :
    (commit s (executeDP d s o)).flags =
      if condPassed d.cond s.flags = true ∧ o.writesFlags = true then o.flags else s.flags := by
  cases h : condPassed d.cond s.flags with
  | false => rw [executeDP_failed o h, commit_skip, setReg_flags, if_neg (by simp)]
  | true => simp [commit_executeDP o h, writeBack_flags]

theorem commit_executeDP_reg (d : DPFields) (s : State) (o : AluOut) {k : Reg} (hk : k ≠ Config.pc) :
    (commit s (executeDP d s o)).reg k =
      if condPassed d.cond s.flags = true ∧ o.writesRd = true ∧ k = d.rd then o.result else s.reg k := by
  cases h : condPassed d.cond s.flags with
  | false => rw [executeDP_failed o h, commit_skip, reg_setReg_of_ne _ _ hk, if_neg (by simp)]
  | true => simp [commit_executeDP o h, reg_setReg_of_ne _ _ hk, writeBack_reg]

theorem commit_executeDP_run (d : DPFields) (s : State) (o : AluOut) : (commit s (executeDP d s o)).run = s.run := by
  cases h : condPassed d.cond s.flags with
  | false => rw [executeDP_failed o h, commit_skip, setReg_run]
  | true => rw [commit_executeDP o h, setReg_run, writeBack_run]

theorem commit_executeDP_mem (d : DPFields) (s : State) (o : AluOut) : (commit s (executeDP d s o)).mem = s.mem := by
  cases h : condPassed d.cond s.flags with
  | false => rw [executeDP_failed o h, commit_skip, setReg_mem]
  | true => rw [commit_executeDP o h, setReg_mem, writeBack_mem]

theorem memoryUnchanged_of_eq {s t : State} (h : t.mem = s.mem) : MemoryUnchanged s t := ⟨by rw [h], fun _ => by rw [h]⟩

/-! ### The shapes of completion -/

theorem execWrites_of_executeDP {i : Instr} {d : DPFields} {s : State} {o : AluOut} (he : effectOf i s = executeDP d s o)
    (hp : condPassed d.cond s.flags = true) (hrd : o.writesRd = true) (hflags : o.writesFlags = d.s) :
    ExecWrites i d s o.result o.flags := by
  refine ⟨commit s (executeDP d s o), by rw [exec_eq, he], fun hpc => ?_, fun k hk hkpc => ?_, commit_executeDP_pc d s o,
    ?_, commit_executeDP_run d s o, memoryUnchanged_of_eq (commit_executeDP_mem d s o)⟩
  · rw [commit_executeDP_reg d s o hpc, if_pos ⟨hp, hrd, rfl⟩]
  · rw [commit_executeDP_reg d s o hkpc, if_neg fun ⟨_, _, h⟩ => hk h]
  · simp [commit_executeDP_flags, hp, hflags]

theorem execCompares_of_executeDP {i : Instr} {d : DPFields} {s : State} {o : AluOut} (he : effectOf i s = executeDP d s o)
    (hp : condPassed d.cond s.flags = true) (hrd : o.writesRd = false) (hflags : o.writesFlags = true) :
    ExecCompares i s o.flags := by
  refine ⟨commit s (executeDP d s o), by rw [exec_eq, he], fun k hkpc => ?_, commit_executeDP_pc d s o,
    ?_, commit_executeDP_run d s o, memoryUnchanged_of_eq (commit_executeDP_mem d s o)⟩
  · rw [commit_executeDP_reg d s o hkpc, if_neg (by simp [hrd])]
  · rw [commit_executeDP_flags, if_pos ⟨hp, hflags⟩]

/-- What the one next state of a result-writing instruction looks like. -/
theorem ExecWrites.next {i : Instr} {d : DPFields} {s t : State} {r : Word} {f : StatusReg} (h : ExecWrites i d s r f)
    (ht : exec i s = .next t) :
    (d.rd ≠ Config.pc → t.reg d.rd = r) ∧ RegsUnchangedBut d.rd s t ∧
      t.flags = (if d.s = true then f else s.flags) := by
  obtain ⟨t', ht', hrd, hregs, -, hflags, -, -⟩ := h
  cases ht'.symm.trans ht
  exact ⟨hrd, hregs, hflags⟩

theorem ExecWrites.flags_next {i : Instr} {d : DPFields} {s t : State} {r : Word} {f : StatusReg}
    (h : ExecWrites i d s r f) (hs : d.s = true) (ht : exec i s = .next t) : t.flags = f := by
  obtain ⟨-, -, hflags⟩ := h.next ht
  rw [hflags, if_pos hs]

theorem ExecCompares.flags_next {i : Instr} {s t : State} {f : StatusReg} (h : ExecCompares i s f)
    (ht : exec i s = .next t) : t.flags = f := by
  obtain ⟨t', ht', -, -, hflags, -, -⟩ := h
  cases ht'.symm.trans ht
  exact hflags

/-! ### The flag rules as the document's properties -/

theorem logicalFlags_eq (f : StatusReg) (r : Word) : logicalFlags f r = logicalOutcome f r := by
  rw [logicalFlags, logicalOutcome, extractNegative, extractZero, BitVec.msb_eq_getLsbD_last]

theorem extractOverflowSub_eq_ssubOverflow (a b : Word) : extractOverflowSub a b (a - b) = a.ssubOverflow b := by
  rw [BitVec.ssubOverflow_eq, extractOverflowSub]
  generalize a.msb = x
  generalize b.msb = y
  generalize (a - b).msb = z
  revert x y z
  decide

/-- Signed overflow of a word subtraction is the unbounded signed difference leaving the range of a word. -/
theorem ssubOverflow_word_iff (a b : Word) :
    a.ssubOverflow b = true ↔ a.toInt - b.toInt < -2 ^ 31 ∨ 2 ^ 31 - 1 < a.toInt - b.toInt := by
  rw [BitVec.ssubOverflow, Bool.or_eq_true, decide_eq_true_iff, decide_eq_true_iff]
  omega

/-- Settles O25: carry is R114's own test, and overflow is the library's signed overflow. -/
theorem subtractionFlagsAreNoBorrowAndSignedRange : Obligations.SubtractionFlagsAreNoBorrowAndSignedRange := fun a b =>
  ⟨decide_eq_true_iff, by rw [extractOverflowSub_eq_ssubOverflow, ssubOverflow_word_iff]⟩

theorem arithFlags_addFlags (f : StatusReg) (a b : Word) : arithFlags f (addFlags a b) = sumOutcome f a b := by
  have hv : extractOverflowAdd a b (a + b) = decide (a.toInt + b.toInt < -2 ^ 31 ∨ 2 ^ 31 ≤ a.toInt + b.toInt) := by
    rw [Bool.eq_iff_iff, (additionFlagsAreCarryAndSignedRange a b).2, decide_eq_true_iff]
    omega
  simp only [arithFlags, addFlags, sumOutcome, extractNegative, extractZero, extractCarryAdd, hv,
    BitVec.msb_eq_getLsbD_last]

theorem arithFlags_subFlags (f : StatusReg) (a b : Word) : arithFlags f (subFlags a b) = differenceOutcome f a b := by
  have hv : extractOverflowSub a b (a - b) = decide (a.toInt - b.toInt < -2 ^ 31 ∨ 2 ^ 31 ≤ a.toInt - b.toInt) := by
    rw [Bool.eq_iff_iff, (subtractionFlagsAreNoBorrowAndSignedRange a b).2, decide_eq_true_iff]
    omega
  simp only [arithFlags, subFlags, differenceOutcome, extractNegative, extractZero, extractCarrySub, hv,
    BitVec.msb_eq_getLsbD_last]

/-! ### The shapes of the operations -/

section Shapes
variable {i : Instr} {d : DPFields} {s : State}

theorem execWrites_logical {r : Word} (hp : condPassed d.cond s.flags = true)
    (he : effectOf i s = executeDP d s (logicalResult d s r)) : ExecWrites i d s r (logicalOutcome s.flags r) :=
  logicalFlags_eq s.flags r ▸ execWrites_of_executeDP he hp rfl rfl

theorem execWrites_sum {a b : Word} (hp : condPassed d.cond s.flags = true)
    (he : effectOf i s = executeDP d s (arithResult d s (addFlags a b))) :
    ExecWrites i d s (a + b) (sumOutcome s.flags a b) :=
  arithFlags_addFlags s.flags a b ▸ execWrites_of_executeDP he hp rfl rfl

theorem execWrites_difference {a b : Word} (hp : condPassed d.cond s.flags = true)
    (he : effectOf i s = executeDP d s (arithResult d s (subFlags a b))) :
    ExecWrites i d s (a - b) (differenceOutcome s.flags a b) :=
  arithFlags_subFlags s.flags a b ▸ execWrites_of_executeDP he hp rfl rfl

theorem execCompares_logical {r : Word} (hp : condPassed d.cond s.flags = true)
    (he : effectOf i s = executeDP d s (logicalCompare s r)) : ExecCompares i s (logicalOutcome s.flags r) :=
  logicalFlags_eq s.flags r ▸ execCompares_of_executeDP he hp rfl rfl

theorem execCompares_sum {a b : Word} (hp : condPassed d.cond s.flags = true)
    (he : effectOf i s = executeDP d s (arithCompare s (addFlags a b))) :
    ExecCompares i s (sumOutcome s.flags a b) :=
  arithFlags_addFlags s.flags a b ▸ execCompares_of_executeDP he hp rfl rfl

theorem execCompares_difference {a b : Word} (hp : condPassed d.cond s.flags = true)
    (he : effectOf i s = executeDP d s (arithCompare s (subFlags a b))) :
    ExecCompares i s (differenceOutcome s.flags a b) :=
  arithFlags_subFlags s.flags a b ▸ execCompares_of_executeDP he hp rfl rfl

end Shapes

/-- The words of class 00 decode to the instruction of their operation code (R72, R80). -/
theorem wordsOf_ofOpcode (op : BitVec 4) : WordsOf op (Instr.ofOpcode op) := by
  intro w c hc hcls hop hbx
  refine ⟨dpFieldsOf c w, ?_, rfl, rfl, regField_val w 16, regField_val w 12, rfl⟩
  rw [decodeWord_dataProcessing hc hcls hbx, decodeDataProcessing_instr, hop]

/-! ### The instructions -/

/-- Settles O29: three logical results. -/
theorem andOrrEorWriteTheBitwiseResult : Obligations.AndOrrEorWriteTheBitwiseResult := by
  refine ⟨wordsOf_ofOpcode _, wordsOf_ofOpcode _, wordsOf_ofOpcode _, ?_⟩
  rintro d s a b hp rfl rfl
  exact ⟨execWrites_logical hp rfl, execWrites_logical hp rfl, execWrites_logical hp rfl⟩

/-- Settles O30: a sum. -/
theorem addWritesTheSum : Obligations.AddWritesTheSum := by
  refine ⟨wordsOf_ofOpcode _, ?_⟩
  rintro d s a b hp rfl rfl
  exact execWrites_sum hp rfl

/-- Settles O31: a difference. -/
theorem subWritesTheDifference : Obligations.SubWritesTheDifference := by
  refine ⟨wordsOf_ofOpcode _, ?_⟩
  rintro d s a b hp rfl rfl
  exact execWrites_difference hp rfl

/-- Settles O32: the difference of the reversed pair. -/
theorem rsbWritesTheReversedDifference : Obligations.RsbWritesTheReversedDifference := by
  refine ⟨wordsOf_ofOpcode _, ?_⟩
  rintro d s a b hp rfl rfl
  exact execWrites_difference hp rfl

/-- Settles O36: two logical compares. -/
theorem tstTeqSetOnlyNAndZ : Obligations.TstTeqSetOnlyNAndZ := by
  refine ⟨wordsOf_ofOpcode _, wordsOf_ofOpcode _, ?_⟩
  rintro d s a b hp rfl rfl
  exact ⟨execCompares_logical hp rfl, execCompares_logical hp rfl⟩

/-- Settles O37: a compare by the difference and one by the sum. -/
theorem cmpCmnSetTheFourFlags : Obligations.CmpCmnSetTheFourFlags := by
  refine ⟨wordsOf_ofOpcode _, wordsOf_ofOpcode _, ?_⟩
  rintro d s a b hp rfl rfl
  exact ⟨execCompares_difference hp rfl, execCompares_sum hp rfl⟩

/-- Settles O38: a logical result that does not look at Rn. -/
theorem movWritesOperandTwo : Obligations.MovWritesOperandTwo := by
  refine ⟨wordsOf_ofOpcode _, ?_⟩
  rintro d s b hp rfl
  exact execWrites_logical hp rfl

/-- Settles O39: two logical results with the complement. -/
theorem bicMvnWriteWithTheComplement : Obligations.BicMvnWriteWithTheComplement := by
  refine ⟨wordsOf_ofOpcode _, wordsOf_ofOpcode _, ?_⟩
  rintro d s a b hp rfl rfl
  exact ⟨execWrites_logical hp rfl, execWrites_logical hp rfl⟩

/-! ### The carry folded into an operand (R175 to R177) -/

/-- What the carry or the borrow adds to an operand. -/
def foldIn (b : Word) (k : Bool) : Word := b + if k = true then 1#32 else 0#32

@[simp] theorem foldIn_false (b : Word) : foldIn b false = b := BitVec.add_zero b

theorem foldIn_true (b : Word) : foldIn b true = b + 1#32 := rfl

theorem foldIn_toNat (b : Word) (k : Bool) :
    (foldIn b k).toNat = if b = 0xFFFFFFFF#32 ∧ k = true then 0 else b.toNat + k.toNat := by
  cases k with
  | false => simp
  | true =>
    by_cases hb : b = 0xFFFFFFFF#32
    · rw [hb]; rfl
    · have hlt := b.isLt
      have hne : b.toNat ≠ 2 ^ 32 - 1 := fun h => hb (BitVec.eq_of_toNat_eq h)
      rw [if_neg (hb ·.1), foldIn_true, BitVec.toNat_add]
      exact Nat.mod_eq_of_lt (show b.toNat + 1 < 2 ^ 32 by omega)

/-- The signed value with the fold: the exact sum, but for the one that leaves the signed range. -/
theorem foldIn_toInt_cases (b : Word) (k : Bool) :
    ((b = 0x7FFFFFFF#32 ∧ k = true) ∧ (foldIn b k).toInt = -2 ^ 31 ∧ b.toInt + k.toNat = 2 ^ 31) ∨
      (¬(b = 0x7FFFFFFF#32 ∧ k = true) ∧ (foldIn b k).toInt = b.toInt + k.toNat) := by
  cases k with
  | false => simp
  | true =>
    by_cases hb : b = 0x7FFFFFFF#32
    · exact .inl ⟨⟨hb, rfl⟩, by rw [hb]; rfl, by rw [hb]; rfl⟩
    · have hlo := BitVec.le_toInt b
      have hhi := BitVec.toInt_lt (x := b)
      have hne : b.toInt ≠ 2 ^ 31 - 1 := fun h => hb (BitVec.eq_of_toInt_eq h)
      refine .inr ⟨(hb ·.1), ?_⟩
      rw [foldIn_true, BitVec.toInt_add]
      exact Int.bmod_eq_of_le (show -(2 ^ 32 / 2 : Int) ≤ b.toInt + 1 by omega)
        (show b.toInt + 1 < (2 ^ 32 + 1) / 2 by omega)

/-- The carry of the folded pair is the exact sum's, but where the fold wraps. -/
theorem carry_of_folded_sum (a b : Word) (k : Bool) : 2 ^ 32 ≤ a.toNat + (foldIn b k).toNat ↔
    (2 ^ 32 ≤ a.toNat + b.toNat + k.toNat ∧ ¬(b = 0xFFFFFFFF#32 ∧ k = true)) := by
  have ha := a.isLt
  rw [foldIn_toNat]
  split
  case isTrue h => simp only [h, and_self, not_true_eq_false, and_false, iff_false]; omega
  case isFalse h => simp only [h, not_false_eq_true, and_true]; omega

/-- The overflow of the folded pair is the exact sum's, but where the fold changes the sign: there it is the complement. -/
theorem overflow_of_folded_sum (a b : Word) (k : Bool) :
    ((a.toInt + (foldIn b k).toInt < -2 ^ 31 ∨ 2 ^ 31 ≤ a.toInt + (foldIn b k).toInt ↔
        a.toInt + b.toInt + k.toNat < -2 ^ 31 ∨ 2 ^ 31 ≤ a.toInt + b.toInt + k.toNat) ↔
      ¬(b = 0x7FFFFFFF#32 ∧ k = true)) := by
  have hlo := BitVec.le_toInt a
  have hhi := BitVec.toInt_lt (x := a)
  obtain ⟨hcorner, hfold, hexact⟩ | ⟨hcorner, hfold⟩ := foldIn_toInt_cases b k
  · refine iff_of_false ?_ (not_not_intro hcorner)
    omega
  · refine iff_of_true ?_ hcorner
    omega

/-- "No borrow" of the folded pair: the exact comparison's, but where the fold wraps to 0. -/
theorem noBorrow_of_folded_difference (a b : Word) (k : Bool) : (foldIn b k).toNat ≤ a.toNat ↔
    (b.toNat + k.toNat ≤ a.toNat ∨ (b = 0xFFFFFFFF#32 ∧ k = true)) := by
  rw [foldIn_toNat]
  split
  case isTrue h => simp only [h, and_self, or_true, Nat.zero_le]
  case isFalse h => simp only [h, or_false]

/-- The same corner case for a difference, where the fold is in the subtrahend. -/
theorem overflow_of_folded_difference (a b : Word) (k : Bool) :
    ((a.toInt - (foldIn b k).toInt < -2 ^ 31 ∨ 2 ^ 31 ≤ a.toInt - (foldIn b k).toInt ↔
        a.toInt - b.toInt - k.toNat < -2 ^ 31 ∨ 2 ^ 31 ≤ a.toInt - b.toInt - k.toNat) ↔
      ¬(b = 0x7FFFFFFF#32 ∧ k = true)) := by
  have hlo := BitVec.le_toInt a
  have hhi := BitVec.toInt_lt (x := a)
  obtain ⟨hcorner, hfold, hexact⟩ | ⟨hcorner, hfold⟩ := foldIn_toInt_cases b k
  · refine iff_of_false ?_ (not_not_intro hcorner)
    omega
  · refine iff_of_true ?_ hcorner
    omega

theorem foldIn_carry (b : Word) (f : StatusReg) : b + carryIn f = foldIn b f.c := rfl

theorem foldIn_borrow (b : Word) (f : StatusReg) : b + borrowIn f = foldIn b (!f.c) := by
  rw [borrowIn, foldIn]
  cases f.c <;> rfl

theorem execWrites_adc {d : DPFields} {s : State} (hp : condPassed d.cond s.flags = true) :
    ExecWrites (.adc d) d s (s.reg d.rn + operand2 d.op2 s + carryIn s.flags)
      (sumOutcome s.flags (s.reg d.rn) (operand2 d.op2 s + carryIn s.flags)) := by
  rw [BitVec.add_assoc]
  exact execWrites_sum hp rfl

theorem execWrites_sbc {d : DPFields} {s : State} (hp : condPassed d.cond s.flags = true) :
    ExecWrites (.sbc d) d s (s.reg d.rn - operand2 d.op2 s - borrowIn s.flags)
      (differenceOutcome s.flags (s.reg d.rn) (operand2 d.op2 s + borrowIn s.flags)) := by
  rw [sub_sub]
  exact execWrites_difference hp rfl

theorem execWrites_rsc {d : DPFields} {s : State} (hp : condPassed d.cond s.flags = true) :
    ExecWrites (.rsc d) d s (operand2 d.op2 s - s.reg d.rn - borrowIn s.flags)
      (differenceOutcome s.flags (operand2 d.op2 s) (s.reg d.rn + borrowIn s.flags)) := by
  rw [sub_sub]
  exact execWrites_difference hp rfl

/-- The two corner cases of a borrow-folded difference, for its flags C and V (R176, R177). -/
theorem folded_difference_flags (f : StatusReg) (a b : Word) :
    ((differenceOutcome f a (b + borrowIn f)).c = true ↔
        (b.toNat + (!f.c).toNat ≤ a.toNat ∨ (b = 0xFFFFFFFF#32 ∧ f.c = false))) ∧
      (((differenceOutcome f a (b + borrowIn f)).v = true ↔
          (a.toInt - b.toInt - (!f.c).toNat < -2 ^ 31 ∨ 2 ^ 31 ≤ a.toInt - b.toInt - (!f.c).toNat)) ↔
        ¬(b = 0x7FFFFFFF#32 ∧ f.c = false)) := by
  simp only [differenceOutcome, foldIn_borrow, decide_eq_true_iff, ← Bool.not_eq_true']
  exact ⟨noBorrow_of_folded_difference a b _, overflow_of_folded_difference a b _⟩

/-- The two corner cases of a carry-folded sum, for its flags C and V (R175). -/
theorem folded_sum_flags (f : StatusReg) (a b : Word) :
    ((sumOutcome f a (b + carryIn f)).c = true ↔
        (2 ^ 32 ≤ a.toNat + b.toNat + f.c.toNat ∧ ¬(b = 0xFFFFFFFF#32 ∧ f.c = true))) ∧
      (((sumOutcome f a (b + carryIn f)).v = true ↔
          (a.toInt + b.toInt + f.c.toNat < -2 ^ 31 ∨ 2 ^ 31 ≤ a.toInt + b.toInt + f.c.toNat)) ↔
        ¬(b = 0x7FFFFFFF#32 ∧ f.c = true)) := by
  rw [foldIn_carry]
  simp only [sumOutcome, decide_eq_true_eq]
  exact ⟨carry_of_folded_sum a b _, overflow_of_folded_sum a b _⟩

/-- Settles O33: the sum of the pair with the carry folded in, and its two corner cases. -/
theorem adcFoldsTheCarryIntoOperandTwo : Obligations.AdcFoldsTheCarryIntoOperandTwo := by
  refine ⟨wordsOf_ofOpcode _, ?_, ?_⟩
  · rintro d s a b hp rfl rfl
    exact execWrites_adc hp
  · rintro d s a b t hp hs rfl rfl ht
    rw [(execWrites_adc hp).flags_next hs ht]
    exact folded_sum_flags s.flags _ _

/-- Settles O34: the difference of the pair with the borrow folded into operand 2, and its two corner cases. -/
theorem sbcFoldsTheBorrowIntoOperandTwo : Obligations.SbcFoldsTheBorrowIntoOperandTwo := by
  refine ⟨wordsOf_ofOpcode _, ?_, ?_⟩
  · rintro d s a b hp rfl rfl
    exact execWrites_sbc hp
  · rintro d s a b t hp hs rfl rfl ht
    rw [(execWrites_sbc hp).flags_next hs ht]
    exact folded_difference_flags s.flags _ _

/-- Settles O35: the difference of the reversed pair with the borrow folded into Rn, and its two corner cases. -/
theorem rscFoldsTheBorrowIntoOperandOne : Obligations.RscFoldsTheBorrowIntoOperandOne := by
  refine ⟨wordsOf_ofOpcode _, ?_, ?_⟩
  · rintro d s a b hp rfl rfl
    exact execWrites_rsc hp
  · rintro d s a b t hp hs rfl rfl ht
    rw [(execWrites_rsc hp).flags_next hs ht]
    exact folded_difference_flags s.flags _ _

end Sys2Proof.Machine
end

section
/-!
PROOFS that put instructions together: the conditions after a compare (R124), the two 64-bit sequences (R256), and Rd = 15
(R31).
-/
namespace Sys2Proof.Machine

/-! ### The conditions after a subtraction (R124) -/

theorem difference_z_iff (f : StatusReg) (a b : Word) : (differenceOutcome f a b).z = true ↔ a = b :=
  decide_eq_true_iff.trans sub_eq_zero

theorem difference_c_iff (f : StatusReg) (a b : Word) : (differenceOutcome f a b).c = true ↔ b.toNat ≤ a.toNat :=
  decide_eq_true_iff

/-- N and V agree when the sign of the word difference is the sign of the unbounded one. -/
theorem difference_n_eq_v_iff (f : StatusReg) (a b : Word) :
    (differenceOutcome f a b).n = (differenceOutcome f a b).v ↔ b.toInt ≤ a.toInt := by
  have halo := BitVec.le_toInt a
  have hahi := BitVec.toInt_lt (x := a)
  have hblo := BitVec.le_toInt b
  have hbhi := BitVec.toInt_lt (x := b)
  have hn : (a - b).getLsbD 31 = decide ((a.toInt - b.toInt).bmod (2 ^ 32) < 0) := by
    rw [← BitVec.toInt_sub, ← BitVec.msb_eq_toInt, BitVec.msb_eq_getLsbD_last]
  rw [Bool.eq_iff_iff, differenceOutcome, hn, decide_eq_true_iff, decide_eq_true_iff, Int.bmod_def]
  split <;> omega

/-- R124's table, for the flags of any difference. -/
theorem conditions_of_difference (f : StatusReg) (a b : Word) :
    let g := differenceOutcome f a b
    (condPassed .eq g = true ↔ a = b) ∧ (condPassed .ne g = true ↔ a ≠ b) ∧
    (condPassed .cs g = true ↔ b.toNat ≤ a.toNat) ∧ (condPassed .cc g = true ↔ a.toNat < b.toNat) ∧
    (condPassed .hi g = true ↔ b.toNat < a.toNat) ∧ (condPassed .ls g = true ↔ a.toNat ≤ b.toNat) ∧
    (condPassed .ge g = true ↔ b.toInt ≤ a.toInt) ∧ (condPassed .lt g = true ↔ a.toInt < b.toInt) ∧
    (condPassed .gt g = true ↔ b.toInt < a.toInt) ∧ (condPassed .le g = true ↔ a.toInt ≤ b.toInt) := by
  have hz := difference_z_iff f a b
  have hc := difference_c_iff f a b
  have hnv := difference_n_eq_v_iff f a b
  have hz' : (differenceOutcome f a b).z = false ↔ a ≠ b := by rw [← Bool.not_eq_true, hz]
  have hc' : (differenceOutcome f a b).c = false ↔ a.toNat < b.toNat := by rw [← Bool.not_eq_true, hc, Nat.not_le]
  have hnat : a = b ↔ a.toNat = b.toNat := BitVec.toNat_inj.symm
  have hint : a = b ↔ a.toInt = b.toInt := BitVec.toInt_inj.symm
  refine ⟨(condPassed_eq_iff _).trans hz, (condPassed_ne_iff _).trans hz', (condPassed_cs_iff _).trans hc,
    (condPassed_cc_iff _).trans hc', ?_, ?_, (condPassed_ge_iff _).trans hnv, ?_, ?_, ?_⟩
  · rw [condPassed_hi_iff, hc, hz', ne_eq, hnat]; omega
  · rw [condPassed_ls_iff, hc', hz, hnat]; omega
  · rw [condPassed_lt_iff, ne_eq, hnv]; omega
  · rw [condPassed_gt_iff, hz', hnv, ne_eq, hint]; omega
  · rw [condPassed_le_iff, hz, ne_eq, hnv, hint]; omega

/-- Settles O23: each of the three leaves the flags of the difference `a - b`. -/
theorem conditionsReadAsComparisonsAfterCompare : Obligations.ConditionsReadAsComparisonsAfterCompare := by
  intro d s a b t hp h
  have hflags : t.flags = differenceOutcome s.flags a b := by
    obtain ⟨ht, rfl, rfl⟩ | ⟨ht, hs, rfl, rfl⟩ | ⟨ht, hs, rfl, rfl⟩ := h
    · exact (execCompares_difference hp rfl).flags_next ht
    · exact (execWrites_difference hp rfl).flags_next hs ht
    · exact (execWrites_difference hp rfl).flags_next hs ht
  rw [hflags]
  exact conditions_of_difference s.flags a b

/-! ### Sums and differences of 64 bits (R256) -/

theorem toNat_append_words (hi lo : Word) : (hi ++ lo).toNat = hi.toNat * 2 ^ 32 + lo.toNat := by
  rw [BitVec.toNat_append, ← Nat.shiftLeft_add_eq_or_of_lt lo.isLt, Nat.shiftLeft_eq]

/-- Adding the low words, then the high words with the carry, adds the 64-bit values. -/
theorem append_add_append (h0 l0 h1 l1 : Word) :
    (h0 + h1 + if decide (2 ^ 32 ≤ l0.toNat + l1.toNat) = true then 1#32 else 0#32) ++ (l0 + l1) =
      (h0 ++ l0) + (h1 ++ l1) := by
  apply BitVec.eq_of_toNat_eq
  rw [toNat_append_words, BitVec.toNat_add (h0 ++ l0), toNat_append_words, toNat_append_words]
  have hl0 := l0.isLt
  have hl1 := l1.isLt
  simp only [decide_eq_true_eq, apply_ite BitVec.toNat, BitVec.toNat_add, BitVec.toNat_ofNat]
  split <;> omega

/-- Subtracting the low words, then the high words with the borrow, subtracts the 64-bit values. -/
theorem append_sub_append (h0 l0 h1 l1 : Word) :
    (h0 - h1 - if decide (l1.toNat ≤ l0.toNat) = true then 0#32 else 1#32) ++ (l0 - l1) =
      (h0 ++ l0) - (h1 ++ l1) := by
  apply BitVec.eq_of_toNat_eq
  rw [toNat_append_words, BitVec.toNat_sub (h0 ++ l0), toNat_append_words, toNat_append_words]
  have hl0 := l0.isLt
  have hl1 := l1.isLt
  simp only [decide_eq_true_eq, apply_ite BitVec.toNat, BitVec.toNat_sub, BitVec.toNat_ofNat]
  split <;> omega

/-- Settles O41: the carry of the low sum is what ADC folds into the high one. -/
theorem addsThenAdcIsSixtyFourBitAddition : Obligations.AddsThenAdcIsSixtyFourBitAddition := by
  intro s t u l0 l1 h0 h1 dl dh hdl hdh hne h0dl h1dl h0pc h1pc ht hu
  obtain ⟨hlow, hkeep, hflags⟩ := (addWritesTheSum.2 _ s _ _ rfl rfl rfl).next ht
  obtain ⟨hhigh, hkeep', -⟩ := (adcFoldsTheCarryIntoOperandTwo.2.1 _ t _ _ rfl rfl rfl).next hu
  rw [hhigh hdh, hkeep' dl hne.symm hdl, hlow hdl, hflags]
  have hh0 : t.reg h0 = s.reg h0 := hkeep h0 h0dl h0pc
  have hh1 : t.reg h1 = s.reg h1 := hkeep h1 h1dl h1pc
  rw [operand2, operand2]
  simp only [hh0, hh1, shift_zero, BitVec.toNat_zero]
  exact append_add_append _ _ _ _

/-- Settles O42: C after the low difference is "no borrow", so SBC folds in its complement. -/
theorem subsThenSbcIsSixtyFourBitSubtraction : Obligations.SubsThenSbcIsSixtyFourBitSubtraction := by
  intro s t u l0 l1 h0 h1 dl dh hdl hdh hne h0dl h1dl h0pc h1pc ht hu
  obtain ⟨hlow, hkeep, hflags⟩ := (subWritesTheDifference.2 _ s _ _ rfl rfl rfl).next ht
  obtain ⟨hhigh, hkeep', -⟩ := (sbcFoldsTheBorrowIntoOperandTwo.2.1 _ t _ _ rfl rfl rfl).next hu
  have hh0 : t.reg h0 = s.reg h0 := hkeep h0 h0dl h0pc
  have hh1 : t.reg h1 = s.reg h1 := hkeep h1 h1dl h1pc
  rw [hhigh hdh, hkeep' dl hne.symm hdl, hlow hdl, hflags, operand2, operand2]
  simp only [hh0, hh1, shift_zero, BitVec.toNat_zero]
  exact append_sub_append _ _ _ _

/-! ### Rd = 15 (R31) -/

/-- The flags after completing the executor do not depend on Rd. -/
theorem commit_executeDP_flags_rd (d : DPFields) (s : State) (o : AluOut) (k : Reg) :
    (commit s (executeDP { d with rd := k } s o)).flags = (commit s (executeDP d s o)).flags := by
  rw [commit_executeDP_flags, commit_executeDP_flags]

theorem commit_ofOpcode_flags_rd (op : BitVec 4) (d : DPFields) (s : State) (k : Reg) :
    (commit s (effectOf (.ofOpcode op { d with rd := k }) s)).flags = (commit s (effectOf (.ofOpcode op d) s)).flags := by
  obtain ⟨n, hn⟩ := op
  interval_cases n <;> exact commit_executeDP_flags_rd d s _ k

/-- Settles O40: the PC update comes after the write of Rd, and no operation reads Rd. -/
theorem writingRegisterFifteenIsNoJump : Obligations.WritingRegisterFifteenIsNoJump := by
  intro op d s _ hrd _
  obtain ⟨o, he, -⟩ := effectOf_dp (dpFields?_ofOpcode op d) s
  refine ⟨commit s (effectOf (.ofOpcode op d) s), exec_eq _ s, ?_, fun k hk => ?_, ?_, fun k t' ht' => ?_⟩
  · rw [he, commit_executeDP_pc]
  · rw [he, commit_executeDP_reg d s o hk, if_neg fun ⟨_, _, h⟩ => hk (h.trans hrd)]
  · rw [he, commit_executeDP_run]
  · rw [exec_eq] at ht'
    cases ht'
    exact commit_ofOpcode_flags_rd op d s k

end Sys2Proof.Machine
end

section
/-!
PROOFS of what an instruction may change: flags (R32), registers (R22, R165) and the PC (R209), and the warning (R163). For a
data-processing instruction they are read off the ALU output, for a branch off the few effects it can have.
-/
namespace Sys2Proof.Machine

/-! ### The fields of an instruction, and the effects of a branch -/

theorem cond_of_dpFields {i : Instr} {d : DPFields} (h : dpFields? i = some d) : i.cond = d.cond := by
  cases i with
  | b c o => cases h
  | bl c o => cases h
  | bx c r => cases h
  | _ d' => cases h; rfl

theorem dpFields_of_resultFields {i : Instr} {d : DPFields} (h : resultFields? i = some d) : dpFields? i = some d := by
  rw [dpFields?, h, Option.some_or]

theorem effectOf_bx_pc (c : Cond) {rm : Reg} (s : State) (hrm : rm = Config.pc) :
    effectOf (.bx c rm) s = .raise s .bxPcOperand := if_pos hrm

/-- What a branch can do: move on, raise, jump, or, for a BL whose condition passes, jump with a link write. -/
theorem effectOf_branch_cases {i : Instr} (h : dpFields? i = none) (s : State) :
    effectOf i s = .skip s ∨ (∃ c, effectOf i s = .raise s c) ∨ (∃ target, effectOf i s = taken s target) ∨
      ∃ c offset, i = .bl c offset ∧ condPassed c s.flags = true ∧
        effectOf i s = taken (s.setReg Config.lr (linkValue s)) (s.pc + offset) := by
  obtain ⟨d, hd⟩ | ⟨c, offset, rfl⟩ | ⟨c, offset, rfl⟩ | ⟨c, rm, rfl⟩ := dpFields?_cases i
  · rw [h] at hd
    cases hd
  · cases hc : condPassed c s.flags with
    | false => exact .inl (effectOf_failed hc nofun)
    | true => exact .inr (.inr (.inl ⟨_, effectOf_b_passed offset hc⟩))
  · cases hc : condPassed c s.flags with
    | false => exact .inl (effectOf_failed hc nofun)
    | true => exact .inr (.inr (.inr ⟨c, offset, rfl, hc, effectOf_bl_passed offset hc⟩))
  · by_cases hrm : rm = Config.pc
    · exact .inr (.inl ⟨_, effectOf_bx_pc c s hrm⟩)
    · cases hc : condPassed c s.flags with
      | false => exact .inl (effectOf_failed hc (by rintro _ ⟨⟩; exact hrm rfl))
      | true =>
        cases hbit : (s.reg rm).getLsbD 0 with
        | true => exact .inr (.inl ⟨_, effectOf_bx_thumb hrm hc hbit⟩)
        | false => exact .inr (.inr (.inl ⟨_, effectOf_bx_taken hrm hc hbit⟩))

/-! ### Flags -/

/-- Branches write no flag (R200). -/
theorem commit_branch_flags {i : Instr} (h : dpFields? i = none) (s : State) :
    (commit s (effectOf i s)).flags = s.flags := by
  obtain he | ⟨c, he⟩ | ⟨target, he⟩ | ⟨c, offset, -, -, he⟩ := effectOf_branch_cases h s <;> rw [he] <;> rfl

/-- Settles O54: T is kept by every executor; the rest is read off the ALU output, or there is none. -/
theorem flagsAreWrittenOnlyByTheirWriters : Obligations.FlagsAreWrittenOnlyByTheirWriters := by
  intro i s t h
  rw [exec_eq] at h
  cases h
  refine ⟨commit_flags_t (effectOf_frame i s).2.2, ?_⟩
  cases hdp : dpFields? i with
  | none =>
    have hflags := commit_branch_flags hdp s
    rw [hflags]
    exact ⟨fun _ => rfl, fun _ => rfl, fun _ _ _ => rfl, fun _ => ⟨rfl, rfl⟩⟩
  | some d =>
    obtain ⟨o, he, -, hwrites, hlogical⟩ := effectOf_dp hdp s
    rw [he, commit_executeDP_flags, cond_of_dpFields hdp]
    refine ⟨fun hc => if_neg (by simp [hc]), nofun, fun d' hd' hs => ?_, fun hl => ?_⟩
    · cases hdp.symm.trans (dpFields_of_resultFields hd')
      exact if_neg (by simp [hwrites hd', hs])
    · split
      case isTrue => exact hlogical hl
      case isFalse => exact ⟨rfl, rfl⟩

/-! ### Registers -/

/-- Settles O55: a changed register was written by an ALU output that writes Rd, or is BL's link; every other effect of a
branch writes the PC alone. -/
theorem registersAreWrittenOnlyByTheirWriters : Obligations.RegistersAreWrittenOnlyByTheirWriters := by
  intro i s t k h hk hne
  rw [exec_eq] at h
  cases h
  cases hdp : dpFields? i with
  | none =>
    obtain he | ⟨c, he⟩ | ⟨target, he⟩ | ⟨c, offset, rfl, hc, he⟩ := effectOf_branch_cases hdp s <;> rw [he] at hne
    · exact absurd (reg_setReg_of_ne _ _ hk) hne
    · exact absurd rfl hne
    · exact absurd (reg_setReg_of_ne _ _ hk) hne
    · refine ⟨hc, .inr ⟨?_, c, offset, rfl⟩⟩
      by_contra hlr
      rw [commit_taken, reg_setReg_of_ne _ _ hk, reg_setReg_of_ne _ _ hlr] at hne
      exact hne rfl
  | some d =>
    obtain ⟨o, he, hrd, -, -⟩ := effectOf_dp hdp s
    rw [he, commit_executeDP_reg d s o hk] at hne
    obtain ⟨hp, hwrites, rfl⟩ : condPassed d.cond s.flags = true ∧ o.writesRd = true ∧ k = d.rd := by
      by_contra hnot
      exact hne (if_neg hnot)
    rw [cond_of_dpFields hdp]
    exact ⟨hp, .inl ⟨d, hrd hwrites, rfl⟩⟩

/-! ### The PC -/

/-- The next PC of an instruction that raises nothing, in the ways of R209. -/
theorem effectOf_nextPc_cases {i : Instr} {s : State} (h : ∀ c, (effectOf i s).result.errorCode ≠ .fatal c) :
    (condPassed i.cond s.flags = false → (effectOf i s).result.nextPc = s.pc + 4#32) ∧
      (∀ d, dpFields? i = some d → (effectOf i s).result.nextPc = s.pc + 4#32) ∧
      (∀ c o, i = .b c o ∨ i = .bl c o → condPassed c s.flags = true → (effectOf i s).result.nextPc = s.pc + o) ∧
      (∀ c rm, i = .bx c rm → rm ≠ Config.pc ∧
        (condPassed c s.flags = true → (effectOf i s).result.nextPc = s.reg rm &&& 0xFFFFFFFC#32)) := by
  have hbx : ∀ c, i ≠ .bx c Config.pc := by
    rintro c rfl
    exact h _ (by rw [effectOf_bx_pc c s rfl]; rfl)
  refine ⟨fun hc => by rw [effectOf_failed hc hbx]; rfl, fun d hd => effectOf_dp_nextPc hd s, ?_, ?_⟩
  · rintro c o (rfl | rfl) hc
    · rw [effectOf_b_passed o hc]; rfl
    · rw [effectOf_bl_passed o hc]; rfl
  · rintro c rm rfl
    have hrm : rm ≠ Config.pc := fun hrm => hbx c (by rw [hrm])
    refine ⟨hrm, fun hc => ?_⟩
    cases hbit : (s.reg rm).getLsbD 0 with
    | true => exact absurd (by rw [effectOf_bx_thumb hrm hc hbit]; rfl) (h .unsupportedMode)
    | false => rw [effectOf_bx_taken hrm hc hbit]; rfl

/-- Settles O56: a fatal step keeps the PC, any other gives it the next PC of its instruction. -/
theorem pcChangesOnlyInTheListedWays : Obligations.PcChangesOnlyInTheListedWays := by
  intro s t h
  obtain ⟨hr, rfl⟩ := step_next_iff.mp h
  obtain ⟨c, -, hcommit⟩ | ⟨hnot, hcommit⟩ := commit_cases s (stepEffect s)
  · rw [hcommit]
    exact .inl ⟨⟨c, rfl⟩, rfl⟩
  · obtain ⟨c, -, he⟩ | ⟨w, i, hfd, he⟩ := stepEffect_cases s
    · exact absurd (by rw [he]; rfl) (hnot c)
    · rw [hcommit, he, pc_setReg_pc, setReg_run, (effectOf_frame i s).2.1]
      rw [he] at hnot
      exact .inr ⟨hr, w, i, hfd, effectOf_nextPc_cases hnot⟩

/-! ### The warning -/

theorem pcOperandWarning_iff (d : DPFields) : pcOperandWarning d = true ↔
    (d.rn = Config.pc ∨ ∃ rm st, rm = Config.pc ∧
      ((∃ n, d.op2 = .regImm rm st n) ∨ (∃ rs, d.op2 = .regReg rm st rs))) := by
  rw [pcOperandWarning, Bool.or_eq_true, decide_eq_true_iff, decide_eq_true_iff]
  cases hop : d.op2 <;> simp [operandRm?]

theorem executeDP_warning_iff (d : DPFields) (s : State) (o : AluOut) :
    (executeDP d s o).result.errorCode = .pcUsedAsOperand ↔
      condPassed d.cond s.flags = true ∧ pcOperandWarning d = true := by
  cases h : condPassed d.cond s.flags with
  | false => rw [executeDP_failed o h]; exact iff_of_false nofun nofun
  | true => rw [executeDP_passed o h]; cases pcOperandWarning d <;> simp

/-- Only data-processing instructions warn. -/
theorem effectOf_warning_iff (i : Instr) (s : State) : (effectOf i s).result.errorCode = .pcUsedAsOperand ↔
    ∃ d, dpFields? i = some d ∧ condPassed d.cond s.flags = true ∧ pcOperandWarning d = true := by
  cases hdp : dpFields? i with
  | none =>
    refine iff_of_false ?_ nofun
    obtain he | ⟨c, he⟩ | ⟨target, he⟩ | ⟨c, offset, -, -, he⟩ := effectOf_branch_cases hdp s <;> rw [he] <;> nofun
  | some d =>
    obtain ⟨o, he, -⟩ := effectOf_dp hdp s
    rw [he, executeDP_warning_iff]
    simp

/-- Settles O50: the step's effect is the instruction's, and warns as its fields say. -/
theorem pcOperandWarningExactly : Obligations.PcOperandWarningExactly := by
  intro s w i hr hfd
  rw [stepResult_eq hr, stepEffect_of_ok hfd]
  simp only [Option.some.injEq, exists_eq_left', effectOf_warning_iff, pcOperandWarning_iff]

/-! ### A failed condition, and BX -/

/-- Settles O22: the effect is a skip. -/
theorem failedConditionOnlyAdvancesThePc : Obligations.FailedConditionOnlyAdvancesThePc := fun i s h hbx =>
  ⟨execMovesPc_of_failed h hbx, by rw [effectOf_failed h hbx]; rfl⟩

/-- Settles O45, by the effect of each form. -/
theorem branchAndExchangeInEveryForm : Obligations.BranchAndExchangeInEveryForm := by
  intro c rm s
  refine ⟨?_, fun hrm hc => execMovesPc_of_failed hc ?_, fun hrm hc hbit => ?_, fun hrm hc hbit => ?_⟩
  · intro hrm
    rw [exec_eq, effectOf_bx_pc c s hrm]
    rfl
  · rintro _ ⟨⟩
    exact hrm rfl
  · rw [exec_eq, effectOf_bx_thumb hrm hc hbit]
    rfl
  · have he := effectOf_bx_taken hrm hc hbit
    exact ⟨execMovesPc_of_commit (by rw [he, commit_taken]), by rw [he]; rfl⟩

end Sys2Proof.Machine
end

section
/-!
PROOFS of the shifted operand (R143 to R149), of register 15 as an operand (R29), and of the packed status value (R25).
-/
namespace Sys2Proof.Machine

/-! ### Shifts are the library's, for every amount (R143, R146 to R149) -/

theorem shift_lsl (v : Word) (n : Nat) : shift v .lsl n = v <<< n := by
  cases n with
  | zero => rw [shift_zero, BitVec.shiftLeft_zero]
  | succ n => exact lsl32_eq v (n + 1)

theorem shift_lsr (v : Word) (n : Nat) : shift v .lsr n = v >>> n := by
  cases n with
  | zero => rw [shift_zero, BitVec.ushiftRight_zero]
  | succ n => exact lsr32_eq v (n + 1)

theorem shift_asr (v : Word) (n : Nat) : shift v .asr n = v.sshiftRight n := by
  cases n with
  | zero => rw [shift_zero, BitVec.sshiftRight_zero]
  | succ n => exact asr32_eq v (n + 1)

theorem shift_ror (v : Word) (n : Nat) : shift v .ror n = ror32 v n := by
  cases n with
  | zero => rfl
  | succ n => rfl

/-- Settles O27: in both forms the operand is one shift, and each shift type is the library's, for every amount. -/
theorem shiftedOperandBitByBit : Obligations.ShiftedOperandBitByBit := by
  intro rm rs st shamt s op2 n j hj hform
  have hop : operand2 op2 s = shift (s.reg rm) st n := by
    obtain ⟨rfl, rfl⟩ | ⟨rfl, rfl⟩ := hform
    · rfl
    · rw [operand2, registerAmount_eq]
  rw [hop]
  refine ⟨?_, ?_, ?_, ?_⟩ <;> rintro rfl
  · rw [shift_lsl, BitVec.getLsbD_shiftLeft]
    by_cases hn : n ≤ j <;> simp [hj, hn]
  · rw [shift_lsr, BitVec.getLsbD_ushiftRight, Nat.add_comm]
  · rw [shift_asr, BitVec.getLsbD_sshiftRight, Nat.add_comm n j, BitVec.msb_eq_getLsbD_last]
    simp [hj]
  · rw [shift_ror, getLsbD_ror32 _ _ hj]

/-- Settles O28: a zero shift and the low byte of the PC, and MOV with the PC as its operand. -/
theorem registerFifteenReadsTheInstructionAddress : Obligations.RegisterFifteenReadsTheInstructionAddress := by
  refine ⟨fun d s hrn => ?_, fun s st => ?_, fun s rm => ?_, fun s c hc => ?_⟩
  · rw [operand1, hrn, State.pc]
  · exact shift_zero s.pc st
  · rw [operand2, shift_lsl, registerAmount_eq, State.pc]
  · have hrd : (0 : Reg) ≠ Config.pc := by decide
    obtain ⟨t, ht, hreg, -⟩ := movWritesOperandTwo.2
      { cond := c, s := false, rn := 0, rd := 0, op2 := .regImm Config.pc .lsl 0#5 } s _ hc rfl
    exact ⟨t, ht, (hreg hrd).trans (shift_zero s.pc .lsl)⟩

/-- Settles O60: bit by bit. -/
theorem statusValueHasTheFiveFlagsInPlace : Obligations.StatusValueHasTheFiveFlagsInPlace := by
  intro f j hj
  simp only [StatusReg.packed, BitVec.getLsbD_append]
  interval_cases j <;> simp

end Sys2Proof.Machine
end
